-- ==== Sys2Proof/Word.lean ====
section
/-!
DEFINITION. The two word widths of the machine (spec 00_scope.md R6, R8): a byte (a register, an
operand, an opcode number) and a 16-bit cell. All values are unsigned.
-/

namespace Sys2Proof

/-- Eight bits: ACC, IX, MDR, CIR, one half of a cell, a cell address (R6, R50). -/
abbrev Byte := BitVec 8

/-- Sixteen bits: one memory cell, `(opcode << 8) | operand` (R6, R8). -/
abbrev Word := BitVec 16

end Sys2Proof
end

