-- ==== Sys2Proof/Config.lean ====
section
/-!
DEFINITION. What is fixed for the machine and is not state: the constants the document fixes
(spec 00_scope.md R6), the parameters it leaves open (R7) as the fields of `Config`, and the free
values, the host's answers, as constants without a body (93_implementation_defined.md U1, U2).
The decided default of each parameter stands in Machine/Decisions.lean.
-/

namespace Sys2Proof

/-- `MEM_CELLS` (R6): the number of cells, addresses 0 to 255. -/
abbrev Config.memCells : Nat := 256

/-- `INPUT_FALLBACK` (R6): the code IN receives when there is no input (R140, R141). -/
abbrev Config.inputFallback : Nat := 0

/-- The 32 opcode names (R80). -/
inductive Opcode where
  | endRun | ldm | ldr | ldd | ldi | ldx | sto | mov
  | adda | addn | suba | subn | inc | dec
  | cmpa | cmpn | cmi | jmp | jpe | jpn | inp | outp
  | anda | andn | ora | orn | xora | xorn | lsl | lsr | brk | err
deriving DecidableEq, Repr

/-- Every opcode name once, in the order of R80. -/
def Opcode.all : List Opcode :=
  [.endRun, .ldm, .ldr, .ldd, .ldi, .ldx, .sto, .mov,
   .adda, .addn, .suba, .subn, .inc, .dec,
   .cmpa, .cmpn, .cmi, .jmp, .jpe, .jpn, .inp, .outp,
   .anda, .andn, .ora, .orn, .xora, .xorn, .lsl, .lsr, .brk, .err]

/-- The registers an operand byte can name (R22). -/
inductive RegName where
  | acc | ix
deriving DecidableEq, Repr

/-- `MEMVAL` (R53): what a data read of a cell yields. -/
inductive MemVal where
  | operandByte
  | wholeWord
deriving DecidableEq, Repr

/-- `PC_OVERRUN` (R26): what the increment past address 255 leads to. -/
inductive PcOverrun where
  /-- PC becomes 256 and the fetch there faults. Safe: the default. -/
  | fault
  /-- PC becomes 0. UNSAFE, as R26 marks it: where the engine fails on the fetch at 256, this hides a
  fault. Log 7. -/
  | wrap
deriving DecidableEq, Repr

/-- `INCDEC_WRAP_FLAGS` (R124, R125): the value INC and DEC hand to the accumulator write at a wrap. -/
inductive IncDecWrapFlags where
  | inRange
  | overflowRule
deriving DecidableEq, Repr

/-- `SHIFT_LARGE` (R156): whether a shift count of 8 or more has a meaning. -/
inductive ShiftLarge where
  | mathematical
  | refuse
deriving DecidableEq, Repr

/-- `CMI_MODE` (R132): how many dereferences CMI makes. -/
inductive CmiMode where
  | indirect
  | triple
deriving DecidableEq, Repr

/-- The error kinds of ERR (R165). -/
inductive ErrorKind where
  | malformedInstruction
  | unrecognizedOpcode
  | unrecognizedRegister
  | unknown
deriving DecidableEq, Repr

/-- The two answers the model sees from the `onBreak` hook (R162, decision D17). -/
inductive BreakAnswer where
  | goOn
  | endRun
deriving DecidableEq, Repr, Inhabited

/-- `SR_LAYOUT` (R30): the bit positions of C, V and N in SR read as a number; Z is at bit 0. -/
structure SrLayout where
  c : Fin 4
  v : Fin 4
  n : Fin 4
deriving DecidableEq, Repr

/-- `RESET_*` (R40, R41; decision D13): the value of each register and of every cell after construction
without arguments, and what `clearMemory` writes in every cell. -/
structure ResetValues where
  acc : Byte
  ix  : Byte
  pc  : BitVec 9
  mar : Word
  mdr : Byte
  cir : Byte
  z   : Bool
  c   : Bool
  v   : Bool
  n   : Bool
  cell    : Word
  cleared : Word
deriving DecidableEq, Repr

/-- `LITERAL_LEXIS` (R96, decision D27): two points of the assembler's number literals. -/
structure LiteralLexis where
  lowerCaseHex : Bool
  emptyDigits  : Bool
deriving DecidableEq, Repr

/-- The parameters the document leaves open (R7), each a named field. -/
structure Config where
  opcodeMap       : Opcode → Byte
  regCode         : Byte → Option RegName
  movTargets      : List RegName
  memVal          : MemVal
  srLayout        : SrLayout
  marBits         : Nat
  pcOverrun       : PcOverrun
  incDecWrapFlags : IncDecWrapFlags
  shiftLarge      : ShiftLarge
  cmiMode         : CmiMode
  resetValues     : ResetValues
  errKind         : Byte → ErrorKind
  inputBits       : Nat
  literalLexis    : LiteralLexis

/-- FREE VALUE: what the host answers to the `k`-th draw of a character (R141: "a free value of the
step, under no law"): a character code, or `none` where it has no input to give. Log 16. -/
opaque Config.inputAnswer : Nat → Option Nat

/-- FREE VALUE: what the `onBreak` hook answers at the `k`-th draw (R162). Log 17. -/
opaque Config.breakAnswer : Nat → BreakAnswer

end Sys2Proof
end

