-- ==== Sys2Proof/Machine/Decisions.lean ====
section
/-!
DEFINITION. The decided default of each parameter of spec 00_scope.md R7, one definition each, and
the configuration made of them. Every value here is the spec's own choice
(92_eei_decisions.md), none is in the source document: mark UNVERIFIED, the log entry of each is
named in its docstring.
-/

namespace Sys2Proof.Decisions

/-- `OPCODE_MAP` (R80, decision D1). UNVERIFIED, log 1. -/
def opcodeMap : Opcode → Byte
  | .endRun => 0x00 | .ldm  => 0x01 | .ldr  => 0x02 | .ldd  => 0x03
  | .ldi    => 0x04 | .ldx  => 0x05 | .sto  => 0x06 | .mov  => 0x07
  | .adda   => 0x08 | .addn => 0x09 | .suba => 0x0A | .subn => 0x0B
  | .inc    => 0x0C | .dec  => 0x0D | .cmpa => 0x0E | .cmpn => 0x0F
  | .cmi    => 0x10 | .jmp  => 0x11 | .jpe  => 0x12 | .jpn  => 0x13
  | .inp    => 0x14 | .outp => 0x15 | .anda => 0x16 | .andn => 0x17
  | .ora    => 0x18 | .orn  => 0x19 | .xora => 0x1A | .xorn => 0x1B
  | .lsl    => 0x1C | .lsr  => 0x1D | .brk  => 0xFE | .err  => 0xFF

/-- `REG_CODE` (R22, decision D2): 0 is ACC, 1 is IX, no other byte names a register. UNVERIFIED, log 2. -/
def regCode (r : Byte) : Option RegName :=
  if r = 0 then some .acc else if r = 1 then some .ix else none

/-- `MOV_TARGETS` (R116, decision D3). UNVERIFIED, log 2. -/
def movTargets : List RegName := [.acc, .ix]

/-- `MEMVAL` (R53, decision D4). UNVERIFIED, log 3. -/
def memVal : MemVal := .operandByte

/-- `SR_LAYOUT` (R30, decision D5). UNVERIFIED, log 4. -/
def srLayout : SrLayout := { c := 1, v := 2, n := 3 }

/-- `MAR_BITS` (R27, decision D7): MAR holds a whole cell. UNVERIFIED, log 6. -/
def marBits : Nat := 16

/-- `PC_OVERRUN` (R26, decision D8). UNVERIFIED, log 7. -/
def pcOverrun : PcOverrun := .fault

/-- `INCDEC_WRAP_FLAGS` (R124, decision D9). UNVERIFIED, log 8. -/
def incDecWrapFlags : IncDecWrapFlags := .inRange

/-- `SHIFT_LARGE` (R156, decision D11). UNVERIFIED, log 10. -/
def shiftLarge : ShiftLarge := .mathematical

/-- `CMI_MODE` (R132, decision D12). UNVERIFIED, log 11. -/
def cmiMode : CmiMode := .indirect

/-- `RESET_*` (R40, R41; decision D13). UNVERIFIED, log 12 for the registers, log 13 for the cells. -/
def resetValues : ResetValues :=
  { acc := 0, ix := 0, pc := 0, mar := 0, mdr := 0, cir := 0,
    z := false, c := false, v := false, n := false, cell := 0x0000, cleared := 0x0000 }

/-- `ERR_KIND` (R165, decision D14). UNVERIFIED, log 14. -/
def errKind (code : Byte) : ErrorKind :=
  if code = 0 then .malformedInstruction
  else if code = 1 then .unrecognizedOpcode
  else if code = 2 then .unrecognizedRegister
  else .unknown

/-- `INPUT_BITS` (R141, decision D16): the width of a character code. UNVERIFIED, log 16. -/
def inputBits : Nat := 8

/-- `LITERAL_LEXIS` (R96, decision D27, left OPEN there): upper-case digits, at least one digit. DESIGN CHOICE, log 24. -/
def literalLexis : LiteralLexis := { lowerCaseHex := false, emptyDigits := false }

/-- What a half of a cell that the memory does not list reads as: the halves of the default reset value
0x0000 (R40, decision D13). UNVERIFIED, log 13. -/
def fillByte : Byte := 0x00

/-- One half of the memory with the same byte in every cell, in the canonical form (log 25): nothing is
listed for the fill byte. -/
def filledCells (v : Byte) : List (Nat × Byte) :=
  if v = fillByte then [] else (List.range Config.memCells).map fun a => (a, v)

end Sys2Proof.Decisions

namespace Sys2Proof

/-- The configuration of the model: every parameter at the spec's default (R7). -/
def Config.spec : Config where
  opcodeMap       := Decisions.opcodeMap
  regCode         := Decisions.regCode
  movTargets      := Decisions.movTargets
  memVal          := Decisions.memVal
  srLayout        := Decisions.srLayout
  marBits         := Decisions.marBits
  pcOverrun       := Decisions.pcOverrun
  incDecWrapFlags := Decisions.incDecWrapFlags
  shiftLarge      := Decisions.shiftLarge
  cmiMode         := Decisions.cmiMode
  resetValues     := Decisions.resetValues
  errKind         := Decisions.errKind
  inputBits       := Decisions.inputBits
  literalLexis    := Decisions.literalLexis

end Sys2Proof
end

