-- ==== Sys2Proof/Syntax.lean ====
section
/-!
DEFINITION. The instructions, one constructor per row of spec/opcode_table.json (30_encoding.md
R80). Every constructor carries the operand byte as it stands (R74), also where the instruction
ignores it (R84), so that no bit of a cell is lost between decoding and encoding.
-/

namespace Sys2Proof

/-- One fetched instruction: its opcode and its operand byte (R71, R80). The argument is a number
`n`, a cell address `a`, a register code `r`, an error code `code`, or an ignored byte, by the
opcode's shape (R75). -/
inductive Instr where
  | endRun (ignored : Byte)
  | ldm (n : Byte)
  | ldr (n : Byte)
  | ldd (a : Byte)
  | ldi (a : Byte)
  | ldx (a : Byte)
  | sto (a : Byte)
  | mov (r : Byte)
  | adda (a : Byte)
  | addn (n : Byte)
  | suba (a : Byte)
  | subn (n : Byte)
  | inc (r : Byte)
  | dec (r : Byte)
  | cmpa (a : Byte)
  | cmpn (n : Byte)
  | cmi (a : Byte)
  | jmp (a : Byte)
  | jpe (a : Byte)
  | jpn (a : Byte)
  | inp (ignored : Byte)
  | outp (ignored : Byte)
  | anda (a : Byte)
  | andn (n : Byte)
  | ora (a : Byte)
  | orn (n : Byte)
  | xora (a : Byte)
  | xorn (n : Byte)
  | lsl (n : Byte)
  | lsr (n : Byte)
  | brk (ignored : Byte)
  | err (code : Byte)
deriving DecidableEq, Repr

end Sys2Proof
end

