-- ==== Sys2Proof/WellFormed.lean ====
section
/-!
DEFINITION. Which instructions are legal encodings (spec 30_encoding.md R83, R84): a register
instruction must name a register it accepts; of every other opcode all 256 operand bytes are legal.
An ill-formed instruction still decodes and is refused when it executes, by the fault
`UnrecognizedRegister` (R173).
-/

namespace Sys2Proof

/-- Does `r` name one of the registers `accepted` (R83)? -/
def namesRegister (c : Config) (accepted : List RegName) (r : Byte) : Bool :=
  match c.regCode r with
  | some x => accepted.contains x
  | none   => false

/-- R83 and R84: the legal operand bytes of each opcode, under any parameters. -/
def Instr.wellFormedUnder (c : Config) : Instr → Bool
  | .mov r => namesRegister c c.movTargets r
  | .inc r => namesRegister c [.acc, .ix] r
  | .dec r => namesRegister c [.acc, .ix] r
  | .endRun _ | .inp _ | .outp _ | .brk _ => true
  | .ldm _ | .ldr _ | .addn _ | .subn _ | .cmpn _ | .andn _ | .orn _ | .xorn _
  | .lsl _ | .lsr _ | .err _ => true
  | .ldd _ | .ldi _ | .ldx _ | .sto _ | .adda _ | .suba _ | .cmpa _ | .cmi _
  | .anda _ | .ora _ | .xora _ | .jmp _ | .jpe _ | .jpn _ => true

/-- R83 and R84 at the default parameters. -/
def Instr.wellFormed (i : Instr) : Bool := i.wellFormedUnder Config.spec

end Sys2Proof
end

