-- ==== Sys2Proof/Decode.lean ====
section
/-!
DEFINITION. Decoding a cell and encoding an instruction (spec 30_encoding.md R71, R72, R80, R82).
Both are written for any opcode map, as R7 asks of `OPCODE_MAP`, and used at its default.
-/

namespace Sys2Proof

/-- `w[15:8]`, the opcode half of a cell (R72). -/
def opcodeField (w : Word) : Byte := w.extractLsb' 8 8

/-- `w[7:0]`, the operand half of a cell (R72). -/
def operandField (w : Word) : Byte := w.extractLsb' 0 8

/-- `(opcode << 8) | operand` (R72). -/
def joinFields (opcode operand : Byte) : Word := opcode ++ operand

/-- The instruction an opcode makes of an operand byte. -/
def Opcode.toInstr : Opcode → Byte → Instr
  | .endRun => .endRun | .ldm  => .ldm  | .ldr  => .ldr  | .ldd  => .ldd
  | .ldi    => .ldi    | .ldx  => .ldx  | .sto  => .sto  | .mov  => .mov
  | .adda   => .adda   | .addn => .addn | .suba => .suba | .subn => .subn
  | .inc    => .inc    | .dec  => .dec  | .cmpa => .cmpa | .cmpn => .cmpn
  | .cmi    => .cmi    | .jmp  => .jmp  | .jpe  => .jpe  | .jpn  => .jpn
  | .inp    => .inp    | .outp => .outp | .anda => .anda | .andn => .andn
  | .ora    => .ora    | .orn  => .orn  | .xora => .xora | .xorn => .xorn
  | .lsl    => .lsl    | .lsr  => .lsr  | .brk  => .brk  | .err  => .err

/-- The opcode name of an instruction. -/
def Instr.opcode : Instr → Opcode
  | .endRun _ => .endRun | .ldm _  => .ldm  | .ldr _  => .ldr  | .ldd _  => .ldd
  | .ldi _    => .ldi    | .ldx _  => .ldx  | .sto _  => .sto  | .mov _  => .mov
  | .adda _   => .adda   | .addn _ => .addn | .suba _ => .suba | .subn _ => .subn
  | .inc _    => .inc    | .dec _  => .dec  | .cmpa _ => .cmpa | .cmpn _ => .cmpn
  | .cmi _    => .cmi    | .jmp _  => .jmp  | .jpe _  => .jpe  | .jpn _  => .jpn
  | .inp _    => .inp    | .outp _ => .outp | .anda _ => .anda | .andn _ => .andn
  | .ora _    => .ora    | .orn _  => .orn  | .xora _ => .xora | .xorn _ => .xorn
  | .lsl _    => .lsl    | .lsr _  => .lsr  | .brk _  => .brk  | .err _  => .err

/-- The operand byte of an instruction. -/
def Instr.operand : Instr → Byte
  | .endRun b | .ldm b | .ldr b | .ldd b | .ldi b | .ldx b | .sto b | .mov b
  | .adda b | .addn b | .suba b | .subn b | .inc b | .dec b
  | .cmpa b | .cmpn b | .cmi b | .jmp b | .jpe b | .jpn b | .inp b | .outp b
  | .anda b | .andn b | .ora b | .orn b | .xora b | .xorn b | .lsl b | .lsr b
  | .brk b | .err b => b

/-- What a cell decodes to: an instruction, or the rejection by name of R82. -/
inductive Decoded where
  | instr (i : Instr)
  /-- The opcode byte names none of the 32 opcodes; the step that meets it takes the fault
  `UnrecognizedOpcode` (R172). Safe. -/
  | unrecognizedOpcode (opcode : Byte)
deriving DecidableEq, Repr

/-- The opcode whose number under `map` is `b`, if there is one (R80: an instruction word selects
the row whose number equals its opcode half). -/
def opcodeNumbered (map : Opcode → Byte) (b : Byte) : Option Opcode :=
  Opcode.all.find? fun o => map o == b

/-- Dispatch on an opcode byte with an operand byte (R195 step 5), under any opcode map. -/
def decodeFieldsWith (map : Opcode → Byte) (opcode operand : Byte) : Decoded :=
  match opcodeNumbered map opcode with
  | some o => .instr (o.toInstr operand)
  | none   => .unrecognizedOpcode opcode

/-- Decoding a cell under any opcode map: total on all 65,536 values (R72). -/
def decodeWith (map : Opcode → Byte) (w : Word) : Decoded :=
  decodeFieldsWith map (opcodeField w) (operandField w)

/-- Dispatch under the default `OPCODE_MAP` (R80, R82). -/
def decodeFields (opcode operand : Byte) : Decoded :=
  decodeFieldsWith Config.spec.opcodeMap opcode operand

/-- Decoding a cell under the default `OPCODE_MAP` (R72, R80, R82). -/
def decode (w : Word) : Decoded := decodeWith Config.spec.opcodeMap w

/-- The cell of an instruction under any opcode map (R72). -/
def encodeWith (map : Opcode → Byte) (i : Instr) : Word :=
  joinFields (map i.opcode) i.operand

/-- The cell of an instruction under the default `OPCODE_MAP` (R72, R80). -/
def encode (i : Instr) : Word := encodeWith Config.spec.opcodeMap i

/-- The instruction the decoder reads from `nbits` bits `w`, every bit above them 0 (every row of
spec/opcode_table.json gives all 16 bits of its cell). -/
def decodeTableWord (nbits w : Nat) : Option Instr :=
  match decode (BitVec.ofNat 16 (w % 2 ^ nbits)) with
  | .instr i              => some i
  | .unrecognizedOpcode _ => none

end Sys2Proof
end

