-- ==== Sys2Proof/Machine/State.lean ====
section
/-!
DEFINITION. The machine's state as plain data (spec 10_state.md): the six registers and SR (R20), the
memory (R36), and beside them what the steps have told the host, which the spec's rules speak of and
`Host.Outcome.next` has no other place for: the End signal of the latest step (R170, R175) and the
trace of channel events (R38). One field is the model's own: the counter of host answers taken.
-/

namespace Sys2Proof.Machine

/-- SR as its four flags (R30): Zero, Carry, Overflow, Negative, "each independently
settable/gettable". -/
structure Flags where
  z : Bool
  c : Bool
  v : Bool
  n : Bool
deriving DecidableEq, Repr

/-- The 256 cells (R36, R50) as their two named halves, each a list of (cell address, byte) pairs.
In the canonical form (`Memory.wf`) addresses rise strictly, are below 256, and no entry holds the
fill value an unlisted half reads as. DESIGN CHOICE, log 25. -/
structure Memory where
  /-- `M[a][15:8]`, the opcode half of cell `a`. -/
  opcodes  : List Host.Cell
  /-- `M[a][7:0]`, the operand half of cell `a`. -/
  operands : List Host.Cell
deriving DecidableEq, Repr

/-- The memory with the same word in every cell (R40, R41). -/
def Memory.filled (w : Word) : Memory where
  opcodes  := Decisions.filledCells (opcodeField w)
  operands := Decisions.filledCells (operandField w)

/-- The seven registers as the host reads them with `getRegisters` (R39) and in a dump (R162). -/
structure Registers where
  acc : Byte
  ix  : Byte
  pc  : BitVec 9
  mar : Word
  mdr : Byte
  cir : Byte
  sr  : Flags
deriving DecidableEq, Repr

/-- "A full register/memory dump", handed to the `onBreak` hook (R162). -/
structure Snapshot where
  regs : Registers
  mem  : Memory
deriving DecidableEq, Repr

/-- One event on a channel to the host (R38): what the trace records. -/
inductive Event where
  /-- `Output(c)`: a character code handed to the `output` hook (R142). -/
  | output (code : Byte)
  /-- `Input()`: the character code the host answered (R141). -/
  | input (code : Nat)
  /-- `Break(snapshot)`: a dump handed to the `onBreak` hook (R162). -/
  | breakpoint (dump : Snapshot)
  /-- `Error(kind, code)`: reported to the `onError` hook by ERR (R163). -/
  | error (kind : ErrorKind) (code : Byte)
deriving DecidableEq, Repr

/-- The reasons of an End signal (R175). -/
inductive EndReason where
  /-- From END. -/
  | success
  /-- From BRK, when the hook answers `end`. -/
  | breakpoint
  /-- From ERR, with its code. -/
  | error (code : Byte)
deriving DecidableEq, Repr

/-- Everything the spec gives the machine (R20, R36), what the steps have told the host, and the
counter of host answers. -/
structure State where
  /-- The accumulator (R21). -/
  acc : Byte
  /-- The index register (R23). -/
  ix : Byte
  /-- The program counter, 0 to 256 (R24). -/
  pc : BitVec 9
  /-- The memory address register: the fetched cell, as wide as `MAR_BITS` lets it (R27). -/
  mar : Word
  /-- The memory data register: the fetched operand byte (R28). -/
  mdr : Byte
  /-- The current instruction register: the fetched opcode byte (R29). -/
  cir : Byte
  /-- The status register (R30). -/
  sr : Flags
  /-- The memory (R36). -/
  mem : Memory
  /-- The End signal of the latest step, if it gave one (R175). It is a report, not a halt latch
  (R37): the next fetch clears it and no step reads it. DEDUCED, log 26. -/
  ended : Option EndReason
  /-- The channel events so far, oldest first (R38). DEDUCED, log 27. -/
  trace : List Event
  /-- The MODEL's own field: how many host answers have been taken (R141, R162). DESIGN CHOICE, log 28. -/
  draws : Nat
deriving DecidableEq, Repr

/-- The hard failures (R171). Each carries the state it leaves (R176; log 29): control has left the
machine, and that state takes no further step (R176, R179). -/
inductive Fault where
  /-- R172: raised by the dispatch when CIR names no opcode; the fetch's writes stand. Safe: the spec's own fault. -/
  | unrecognizedOpcode (left : State)
  /-- R173: raised by MOV, INC and DEC when the operand byte names no register they accept; the fetch's writes stand.
  Safe: a machine with more register codes would run on. -/
  | unrecognizedRegister (left : State)
  /-- R174: the document names it and gives no cause; no rule raises it and nothing in the model does. Safe. -/
  | malformedInstruction (left : State)
  /-- R26, R174: raised by the fetch when PC is past the last cell; nothing is written. Safe: a machine that wraps would run on. -/
  | fetchOutOfRange (left : State)
deriving DecidableEq, Repr

/-- Why a call has no meaning. No step of the model at its default parameters refuses (R170). -/
inductive Refusal where
  /-- An instruction without a meaning yet: raised by `exec`'s arms only, and by none of them now. Safe. -/
  | notModelled (mnemonic : String)
  /-- R156, `SHIFT_LARGE = refuse`: a shift count of 8 or more under the parameter value that gives it no meaning.
  Never raised at the default `mathematical`. Safe. -/
  | shiftCountOpen (count : Byte)
  /-- R184, decision D23: a host entry point called with an argument outside its range. Never raised by a step. Safe. -/
  | hostArgument
deriving DecidableEq, Repr

/-- What a step or a meaning answers (R170). -/
abbrev Result := Host.Outcome State Fault Refusal

/-- The machine right after construction without arguments (R40, R190), under any parameters: every
register and every cell at its `RESET_*` value, no event, no End signal. -/
def State.resetUnder (c : Config) : State where
  acc   := c.resetValues.acc
  ix    := c.resetValues.ix
  pc    := c.resetValues.pc
  mar   := c.resetValues.mar
  mdr   := c.resetValues.mdr
  cir   := c.resetValues.cir
  sr    := { z := c.resetValues.z, c := c.resetValues.c, v := c.resetValues.v, n := c.resetValues.n }
  mem   := Memory.filled c.resetValues.cell
  ended := none
  trace := []
  draws := 0

/-- The machine right after reset, at the default parameters (R40). -/
def State.reset : State := State.resetUnder Config.spec

end Sys2Proof.Machine
end

