-- ==== Sys2Proof/Machine/Flags.lean ====
section
/-!
DEFINITION. Every flag computation of the machine (spec 10_state.md R30 to R34): the flags of an
accumulator write, the flag of a compare, and SR read or given as a number or a string.
-/

namespace Sys2Proof.Machine

/-- The flags after an accumulator write of the exact integer `value` (R33, conflicts C1 and C2): a
flag the document's table does not name in a case is kept (decision D6, UNVERIFIED, log 5). -/
def Flags.afterAccWrite (value : Int) (f : Flags) : Flags :=
  if value > 255 then { f with n := false, v := true, c := true }
  else if value < 0 then { f with n := true, v := true, c := false }
  else { f with z := false }

/-- The flags after a compare (R130 to R132): Z is the equality, nothing else changes. -/
def Flags.afterCompare (equal : Bool) (f : Flags) : Flags := { f with z := equal }

/-- SR as a number (R30): Z at bit 0, the other flags where `SR_LAYOUT` puts them. -/
def Flags.toBits (layout : SrLayout) (f : Flags) : BitVec 4 :=
  BitVec.ofNat 4 (f.z.toNat + f.c.toNat * 2 ^ layout.c.val + f.v.toNat * 2 ^ layout.v.val
    + f.n.toNat * 2 ^ layout.n.val)

/-- The flags a 4-bit number stands for (R30). -/
def Flags.ofBits (layout : SrLayout) (b : BitVec 4) : Flags where
  z := b.getLsbD 0
  c := b.getLsbD layout.c.val
  v := b.getLsbD layout.v.val
  n := b.getLsbD layout.n.val

/-- The value of one character of the SR string (R32). -/
def binaryDigit : Char → Option Nat
  | '0' => some 0
  | '1' => some 1
  | _   => none

/-- The SR string of the construction argument (R32): exactly four binary digits, leftmost bit 3. -/
def Flags.ofText (layout : SrLayout) : List Char → Option Flags
  | [b3, b2, b1, b0] =>
    match binaryDigit b3, binaryDigit b2, binaryDigit b1, binaryDigit b0 with
    | some d3, some d2, some d1, some d0 =>
      some (Flags.ofBits layout (BitVec.ofNat 4 (8 * d3 + 4 * d2 + 2 * d1 + d0)))
    | _, _, _, _ => none
  | _ => none

end Sys2Proof.Machine
end

