-- ==== Sys2Proof/Machine/Ops.lean ====
section
/-!
DEFINITION. The named operations over memory and registers that every meaning is written with: the
pseudocode primitives of spec 00_scope.md R10, the fetch (70_reset_and_hazards.md R195 steps 1 to 4),
and taking a hard failure (60_exceptions.md R171, R176). The machine has no return from one (R180).
-/

namespace Sys2Proof.Machine

/-- Range normalisation `norm(v)` (R9): the residue of an integer modulo 256. -/
def normalise (value : Int) : Byte := BitVec.ofInt 8 value

/-! ### Memory -/

/-- The byte listed for `a`, or the fill value (R40, R41). -/
def readCell (a : Nat) : List Host.Cell → Byte
  | []          => Decisions.fillByte
  | (k, x) :: t => if k = a then x else readCell a t

/-- Lists `v` for `a` before the first greater address. -/
def insertCell (a : Nat) (v : Byte) : List Host.Cell → List Host.Cell
  | []          => [(a, v)]
  | (k, x) :: t => if a < k then (a, v) :: (k, x) :: t else (k, x) :: insertCell a v t

/-- Takes every entry for `a` off the list. -/
def dropCell (a : Nat) (l : List Host.Cell) : List Host.Cell := l.filter fun c => c.1 != a

/-- Makes `a` read as `v`, listing nothing for the fill value (the canonical form, log 25). -/
def writeCell (a : Nat) (v : Byte) (l : List Host.Cell) : List Host.Cell :=
  if v = Decisions.fillByte then dropCell a l else insertCell a v (dropCell a l)

/-- The canonical form of one half: rising addresses of existing cells, no entry at the fill value. -/
abbrev cellsWf (l : List Host.Cell) : Prop :=
  l.Pairwise (fun c d => c.1 < d.1) ∧ ∀ c ∈ l, c.1 < Config.memCells ∧ c.2 ≠ Decisions.fillByte

/-- The canonical form of the memory (log 25). -/
abbrev Memory.wf (m : Memory) : Prop := cellsWf m.opcodes ∧ cellsWf m.operands

/-- `M[a][15:8]` (R50). -/
def Memory.opcodeAt (m : Memory) (a : Byte) : Byte := readCell a.toNat m.opcodes

/-- `MemRead(a, 8)`, the operand half `M[a][7:0]` (R50, R53). -/
def Memory.operandAt (m : Memory) (a : Byte) : Byte := readCell a.toNat m.operands

/-- `MemRead(a, 16)`, the whole cell `M[a]` (R53a). -/
def Memory.cellAt (m : Memory) (a : Byte) : Word := joinFields (m.opcodeAt a) (m.operandAt a)

/-- `MemWrite(a, 8, v)` (R54): writes the operand half, keeps the opcode half. -/
def Memory.writeOperand (m : Memory) (a : Byte) (v : Byte) : Memory :=
  { m with operands := writeCell a.toNat v m.operands }

/-- `MemWrite(a, 16, w)` (R10): writes the whole cell; for the host only. -/
def Memory.writeWord (m : Memory) (a : Byte) (w : Word) : Memory where
  opcodes  := writeCell a.toNat (opcodeField w) m.opcodes
  operands := writeCell a.toNat (operandField w) m.operands

/-- Memory with every cell at 0x0000: what a short image is padded with (R64, decision D23). -/
def Memory.clear : Memory := { opcodes := [], operands := [] }

/-! ### Registers -/

/-- `AccWrite(v)` (R33): the one way ACC is written, with its flag side effects. -/
def State.accWrite (value : Int) (s : State) : State :=
  { s with acc := normalise value, sr := s.sr.afterAccWrite value }

/-- `IX <- norm(v)` (R23); SR is kept (R34, decision D10, UNVERIFIED, log 9). -/
def State.ixWrite (value : Int) (s : State) : State := { s with ix := normalise value }

/-- `x[i]` for a named register (R22). -/
def State.readReg (s : State) : RegName → Byte
  | .acc => s.acc
  | .ix  => s.ix

/-- `x[i] <- v` for a named register (R10): ACC through `AccWrite`, IX through `norm`. -/
def State.writeReg (x : RegName) (value : Int) (s : State) : State :=
  match x with
  | .acc => s.accWrite value
  | .ix  => s.ixWrite value

/-- The one register a compare writes (R130): Z becomes the equality of ACC and `value`. -/
def State.compare (value : Nat) (s : State) : State :=
  { s with sr := s.sr.afterCompare (decide (s.acc.toNat = value)) }

/-- `pc <- target` (R25, R195 step 6). -/
def State.jumpTo (target : Byte) (s : State) : State := { s with pc := target.setWidth 9 }

/-- `MemWrite(a, 8, v)` on the state (R54). -/
def State.store (a v : Byte) (s : State) : State := { s with mem := s.mem.writeOperand a v }

/-! ### Channels and the End signal -/

/-- Appends one event to the trace (R38). -/
def State.emit (e : Event) (s : State) : State := { s with trace := s.trace ++ [e] }

/-- `signal End(reason)` (R175): reported to the caller of the step; changes nothing else. -/
def State.signalEnd (reason : EndReason) (s : State) : State := { s with ended := some reason }

/-- The character code of the host's answer (R140, R141): `INPUT_FALLBACK` where there is no input,
else a code of the channel's width. -/
def inputCode (c : Config) : Option Nat → Nat
  | some code => code % 2 ^ c.inputBits
  | none      => Config.inputFallback

/-- `Input()` answered with `code` (R141): one draw is used up and the event recorded. -/
def State.takeInput (code : Nat) (s : State) : State :=
  { s with trace := s.trace ++ [.input code], draws := s.draws + 1 }

/-- The registers as the host reads them (R39). -/
def State.registers (s : State) : Registers where
  acc := s.acc
  ix  := s.ix
  pc  := s.pc
  mar := s.mar
  mdr := s.mdr
  cir := s.cir
  sr  := s.sr

/-- The dump handed to the `onBreak` hook (R162): registers and memory as they are at the call. -/
def State.snapshot (s : State) : Snapshot := { regs := s.registers, mem := s.mem }

/-- `Break(snapshot)` answered with `answer`, and the End signal if that is `end` (R161, R162). -/
def State.takeBreak (answer : BreakAnswer) (s : State) : State :=
  { s with trace := s.trace ++ [.breakpoint s.snapshot], draws := s.draws + 1,
           ended := if answer = .endRun then some .breakpoint else s.ended }

/-! ### Hard failures and the fetch -/

/-- `raise Fault(k)` (R171, R176): taking a hard failure. The step is abandoned with the state as it
stands; there is no handler, nothing is saved and nothing more is written (R179). -/
def raise (kind : State → Fault) (s : State) : Result := .fault (kind s)

/-- The cell address in PC, meaningful while PC is below 256 (R24). -/
def pcAddress (pc : BitVec 9) : Byte := pc.setWidth 8

/-- PC after step 4 of the cycle (R195, R26): not normalised, or normalised under `wrap`, which is the
UNSAFE direction (log 7). -/
def advancePc (mode : PcOverrun) (pc : BitVec 9) : BitVec 9 :=
  match mode with
  | .fault => pc + 1
  | .wrap  => (pcAddress (pc + 1)).setWidth 9

/-- The state after steps 1 to 4 of the cycle on the cell `w` (R195, R27 to R29), under any parameters.
The report of the step before is over (log 26). -/
def State.fetchedUnder (c : Config) (w : Word) (s : State) : State :=
  { s with mar := (w.setWidth c.marBits).setWidth 16, mdr := operandField w, cir := opcodeField w,
           pc := advancePc c.pcOverrun s.pc, ended := none }

/-- The state after steps 1 to 4 at the default parameters. -/
def State.fetched (w : Word) (s : State) : State := s.fetchedUnder Config.spec w

/-- Steps 1 to 4 of the cycle (R195), or `FetchOutOfRange` with nothing written when PC addresses no
cell (R26, R174). -/
def fetch (c : Config) (s : State) : Result :=
  if s.pc.toNat < Config.memCells then .next (s.fetchedUnder c (s.mem.cellAt (pcAddress s.pc)))
  else raise .fetchOutOfRange s

/-- What step 5 dispatches on: CIR, with MDR as the operand (R195). -/
def State.current (c : Config) (s : State) : Decoded := decodeFieldsWith c.opcodeMap s.cir s.mdr

/-- Step 5 when CIR names no opcode (R172). -/
def unrecognizedOpcode (s : State) : Result := raise .unrecognizedOpcode s

/-- The fetch-execute cycle (R195) under any parameters and their dispatch: the fetch, then the
instruction in CIR with MDR as its operand. -/
def cycle (c : Config) (dispatch : Instr → State → Result) (s : State) : Result :=
  match fetch c s with
  | .next f =>
    match f.current c with
    | .instr i              => dispatch i f
    | .unrecognizedOpcode _ => unrecognizedOpcode f
  | .fault r   => .fault r
  | .refused r => .refused r

/-- `s` with the cell `w` placed where the next fetch reads (a host's load, log 31): at PC, or at 0,
with PC set there, when PC addresses no cell. -/
def State.placeAtPc (w : Word) (s : State) : State :=
  if s.pc.toNat < Config.memCells then { s with mem := s.mem.writeWord (pcAddress s.pc) w }
  else { s with pc := 0, mem := s.mem.writeWord 0 w }

end Sys2Proof.Machine
end

