-- ==== Sys2Proof/Machine/Operands.lean ====
section
/-!
DEFINITION. Every operand form (spec 20_memory.md R53, R56): the direct, indirect and indexed values
of memory and the register operand. An immediate operand is the operand byte itself (R74).
A definition whose name ends in Under takes the parameters of R7 as an argument.
-/

namespace Sys2Proof.Machine

/-- `Val(a)`, the data value of a cell, for either value of `MEMVAL` (R53). -/
def Memory.val (mode : MemVal) (m : Memory) (a : Byte) : Nat :=
  match mode with
  | .operandByte => (m.operandAt a).toNat
  | .wholeWord   => (m.cellAt a).toNat

/-- Direct: `Val(a)` (R53, R56), under any parameters. -/
def State.directUnder (c : Config) (s : State) (a : Byte) : Nat := s.mem.val c.memVal a

/-- Direct at the default parameters. -/
def State.direct (s : State) (a : Byte) : Nat := s.directUnder Config.spec a

/-- Indirect: `Val(MemRead(a, 8))`. The pointer is the operand half under either `MEMVAL` (R56, R113). -/
def State.indirectUnder (c : Config) (s : State) (a : Byte) : Nat :=
  s.directUnder c (s.mem.operandAt a)

/-- The effective address of the indexed mode, `norm(a + IX)` (R56, R114). -/
def State.indexedAddress (s : State) (a : Byte) : Byte := normalise ((a.toNat + s.ix.toNat : Nat) : Int)

/-- Indexed: `Val(norm(a + IX))` (R56, R114). -/
def State.indexedUnder (c : Config) (s : State) (a : Byte) : Nat := s.directUnder c (s.indexedAddress a)

/-- The value CMI compares with, by `CMI_MODE` (R132): two reads, or three. -/
def State.cmiValueUnder (c : Config) (s : State) (a : Byte) : Nat :=
  match c.cmiMode with
  | .indirect => s.indirectUnder c a
  | .triple   => s.indirectUnder c (s.mem.operandAt a)

/-- The register operand of MOV, INC and DEC (R22, R83): `k` on the register `r` names if the
instruction accepts it, else `UnrecognizedRegister` before anything is written (R173). -/
def withRegister (c : Config) (accepted : List RegName) (r : Byte) (s : State) (k : RegName → State) :
    Result :=
  match c.regCode r with
  | some x => if x ∈ accepted then .next (k x) else raise .unrecognizedRegister s
  | none   => raise .unrecognizedRegister s

end Sys2Proof.Machine
end

