-- ==== Sys2Proof/Machine/Arithmetic.lean ====
section
/-!
DEFINITION. ADDA, ADDN, SUBA, SUBN, INC and DEC (spec 41_arithmetic.md): exact integer results given
to the accumulator write (R126).
-/

namespace Sys2Proof.Machine

/-- `AccWrite(ACC + v)` (R126). -/
def State.add (value : Nat) (s : State) : State := s.accWrite (s.acc.toNat + value)

/-- `AccWrite(ACC - v)` (R126). -/
def State.sub (value : Nat) (s : State) : State := s.accWrite (s.acc.toNat - value)

/-- R120, ADDA a. -/
def execAddaUnder (c : Config) (a : Byte) (s : State) : Result :=
  .next (s.add (s.directUnder c a))

/-- R120 at the default parameters. -/
def execAdda (a : Byte) (s : State) : Result := execAddaUnder Config.spec a s

/-- R121, ADDN n. -/
def execAddn (n : Byte) (s : State) : Result := .next (s.add n.toNat)

/-- R122, SUBA a. -/
def execSubaUnder (c : Config) (a : Byte) (s : State) : Result :=
  .next (s.sub (s.directUnder c a))

/-- R122 at the default parameters. -/
def execSuba (a : Byte) (s : State) : Result := execSubaUnder Config.spec a s

/-- R123, SUBN n. -/
def execSubn (n : Byte) (s : State) : Result := .next (s.sub n.toNat)

/-- What INC hands to the register write (R124): the wrapped value, or the exact one. -/
def incremented (mode : IncDecWrapFlags) (x : Byte) : Int :=
  match mode with
  | .inRange      => if x.toNat = 255 then 0 else x.toNat + 1
  | .overflowRule => x.toNat + 1

/-- What DEC hands to the register write (R125): the wrapped value, or the exact one. -/
def decremented (mode : IncDecWrapFlags) (x : Byte) : Int :=
  match mode with
  | .inRange      => if x.toNat = 0 then 255 else x.toNat - 1
  | .overflowRule => x.toNat - 1

/-- R124, INC r: "ACC or IX only". -/
def execIncUnder (c : Config) (r : Byte) (s : State) : Result :=
  withRegister c [.acc, .ix] r s fun x =>
    s.writeReg x (incremented c.incDecWrapFlags (s.readReg x))

/-- R124 at the default parameters. -/
def execInc (r : Byte) (s : State) : Result := execIncUnder Config.spec r s

/-- R125, DEC r: "ACC or IX only". -/
def execDecUnder (c : Config) (r : Byte) (s : State) : Result :=
  withRegister c [.acc, .ix] r s fun x =>
    s.writeReg x (decremented c.incDecWrapFlags (s.readReg x))

/-- R125 at the default parameters. -/
def execDec (r : Byte) (s : State) : Result := execDecUnder Config.spec r s

end Sys2Proof.Machine
end

