-- ==== Sys2Proof/Machine/BitwiseShift.lean ====
section
/-!
DEFINITION. ANDA, ANDN, ORA, ORN, XORA, XORN, LSL and LSR (spec 44_bitwise_shift.md): bitwise
operations on unsigned numbers and exact shifts, given to the accumulator write (R158).
-/

namespace Sys2Proof.Machine

/-- `AccWrite(ACC & v)` (R158). -/
def State.bitAnd (value : Nat) (s : State) : State := s.accWrite ((s.acc.toNat &&& value : Nat) : Int)

/-- `AccWrite(ACC | v)` (R158). -/
def State.bitOr (value : Nat) (s : State) : State := s.accWrite ((s.acc.toNat ||| value : Nat) : Int)

/-- `AccWrite(ACC ^ v)` (R158). -/
def State.bitXor (value : Nat) (s : State) : State := s.accWrite ((s.acc.toNat ^^^ value : Nat) : Int)

/-- R150, ANDA a. -/
def execAndaUnder (c : Config) (a : Byte) (s : State) : Result :=
  .next (s.bitAnd (s.directUnder c a))

/-- R150 at the default parameters. -/
def execAnda (a : Byte) (s : State) : Result := execAndaUnder Config.spec a s

/-- R151, ANDN n. -/
def execAndn (n : Byte) (s : State) : Result := .next (s.bitAnd n.toNat)

/-- R152, ORA a. -/
def execOraUnder (c : Config) (a : Byte) (s : State) : Result :=
  .next (s.bitOr (s.directUnder c a))

/-- R152 at the default parameters. -/
def execOra (a : Byte) (s : State) : Result := execOraUnder Config.spec a s

/-- R153, ORN n. -/
def execOrn (n : Byte) (s : State) : Result := .next (s.bitOr n.toNat)

/-- R154, XORA a. -/
def execXoraUnder (c : Config) (a : Byte) (s : State) : Result :=
  .next (s.bitXor (s.directUnder c a))

/-- R154 at the default parameters. -/
def execXora (a : Byte) (s : State) : Result := execXoraUnder Config.spec a s

/-- R155, XORN n. -/
def execXorn (n : Byte) (s : State) : Result := .next (s.bitXor n.toNat)

/-- A shift by `n` that leaves the exact integer `value` (R156, R157): under `SHIFT_LARGE = refuse` a
count of 8 or more has no meaning. -/
def shiftWith (mode : ShiftLarge) (n : Byte) (value : Nat) (s : State) : Result :=
  match mode with
  | .mathematical => .next (s.accWrite value)
  | .refuse       => if n.toNat < 8 then .next (s.accWrite value) else .refused (.shiftCountOpen n)

/-- R156, LSL n: the exact product `ACC * 2^n`. -/
def execLslUnder (c : Config) (n : Byte) (s : State) : Result :=
  shiftWith c.shiftLarge n (s.acc.toNat * 2 ^ n.toNat) s

/-- R156 at the default parameters. -/
def execLsl (n : Byte) (s : State) : Result := execLslUnder Config.spec n s

/-- R157, LSR n: `floor(ACC / 2^n)`. -/
def execLsrUnder (c : Config) (n : Byte) (s : State) : Result :=
  shiftWith c.shiftLarge n (s.acc.toNat / 2 ^ n.toNat) s

/-- R157 at the default parameters. -/
def execLsr (n : Byte) (s : State) : Result := execLsrUnder Config.spec n s

end Sys2Proof.Machine
end

