-- ==== Sys2Proof/Machine/CompareJump.lean ====
section
/-!
DEFINITION. CMPA, CMPN, CMI, JMP, JPE and JPN (spec 42_compare_jump.md).
-/

namespace Sys2Proof.Machine

/-- R130, CMPA a. -/
def execCmpaUnder (c : Config) (a : Byte) (s : State) : Result :=
  .next (s.compare (s.directUnder c a))

/-- R130 at the default parameters. -/
def execCmpa (a : Byte) (s : State) : Result := execCmpaUnder Config.spec a s

/-- R131, CMPN n. -/
def execCmpn (n : Byte) (s : State) : Result := .next (s.compare n.toNat)

/-- R132, CMI a. -/
def execCmiUnder (c : Config) (a : Byte) (s : State) : Result :=
  .next (s.compare (s.cmiValueUnder c a))

/-- R132 at the default parameters. -/
def execCmi (a : Byte) (s : State) : Result := execCmiUnder Config.spec a s

/-- A jump taken when `taken` holds; otherwise PC keeps the incremented value (R134, R136). -/
def State.jumpIf (taken : Bool) (target : Byte) (s : State) : State :=
  if taken then s.jumpTo target else s

/-- R133, JMP a: always taken. -/
def execJmp (a : Byte) (s : State) : Result := .next (s.jumpTo a)

/-- R134, JPE a: taken when Z is set. -/
def execJpe (a : Byte) (s : State) : Result := .next (s.jumpIf s.sr.z a)

/-- R135, JPN a: taken when Z is clear. -/
def execJpn (a : Byte) (s : State) : Result := .next (s.jumpIf (!s.sr.z) a)

end Sys2Proof.Machine
end

