-- ==== Sys2Proof/Machine/EndBrkErr.lean ====
section
/-!
DEFINITION. END, BRK and ERR (spec 45_end_brk_err.md): the End signal and the two host channels. The
operand byte of END and BRK is ignored (30_encoding.md R84; for BRK decision D15, UNVERIFIED, log 15).
-/

namespace Sys2Proof.Machine

/-- R160, END: `signal End(Success)`; no register and no cell is changed. -/
def execEndRun (_ignored : Byte) (s : State) : Result := .next (s.signalEnd .success)

/-- R161, BRK: dump to the host, end the run if the hook answers `end`; the answer is the free value
of this draw (R162, log 17). -/
def execBrk (_ignored : Byte) (s : State) : Result :=
  .next (s.takeBreak (Config.breakAnswer s.draws))

/-- R164, ERR code: report kind and code, then `signal End(Error(code))`. -/
def execErrUnder (c : Config) (code : Byte) (s : State) : Result :=
  .next ((s.emit (.error (c.errKind code) code)).signalEnd (.error code))

/-- R164 at the default parameters. -/
def execErr (code : Byte) (s : State) : Result := execErrUnder Config.spec code s

end Sys2Proof.Machine
end

