-- ==== Sys2Proof/Machine/Io.lean ====
section
/-!
DEFINITION. IN and OUT (spec 43_io.md). The operand byte is ignored (30_encoding.md R84; for IN and
OUT decision D15, UNVERIFIED, log 15).
-/

namespace Sys2Proof.Machine

/-- R140 for a given answer of the host, of any width: record the input, then `AccWrite(c)`. -/
def State.input (code : Nat) (s : State) : State := (s.takeInput code).accWrite code

/-- R140, IN: the answer is the free value of this draw (R141, log 16). -/
def execInpUnder (c : Config) (_ignored : Byte) (s : State) : Result :=
  .next (s.input (inputCode c (Config.inputAnswer s.draws)))

/-- R140 at the default parameters. -/
def execInp (ignored : Byte) (s : State) : Result := execInpUnder Config.spec ignored s

/-- R143, OUT: emit the character whose code is in ACC. -/
def execOutp (_ignored : Byte) (s : State) : Result := .next (s.emit (.output s.acc))

end Sys2Proof.Machine
end

