-- ==== Sys2Proof/Machine/LoadStoreMove.lean ====
section
/-!
DEFINITION. LDM, LDR, LDD, LDI, LDX, STO and MOV (spec 40_load_store_move.md). A meaning is step 5
of the cycle: the fetch has already run.
-/

namespace Sys2Proof.Machine

/-- R110, LDM n: load immediate into ACC. -/
def execLdm (n : Byte) (s : State) : Result := .next (s.accWrite n.toNat)

/-- R111, LDR n: load immediate into IX. -/
def execLdr (n : Byte) (s : State) : Result := .next (s.ixWrite n.toNat)

/-- R112, LDD a: load direct into ACC. -/
def execLddUnder (c : Config) (a : Byte) (s : State) : Result :=
  .next (s.accWrite (s.directUnder c a))

/-- R112 at the default parameters. -/
def execLdd (a : Byte) (s : State) : Result := execLddUnder Config.spec a s

/-- R113, LDI a: load indirect into ACC. -/
def execLdiUnder (c : Config) (a : Byte) (s : State) : Result :=
  .next (s.accWrite (s.indirectUnder c a))

/-- R113 at the default parameters. -/
def execLdi (a : Byte) (s : State) : Result := execLdiUnder Config.spec a s

/-- R114, LDX a: load indexed into ACC; IX is kept. -/
def execLdxUnder (c : Config) (a : Byte) (s : State) : Result :=
  .next (s.accWrite (s.indexedUnder c a))

/-- R114 at the default parameters. -/
def execLdx (a : Byte) (s : State) : Result := execLdxUnder Config.spec a s

/-- R115, STO a: store ACC in the operand half of a cell. -/
def execSto (a : Byte) (s : State) : Result := .next (s.store a s.acc)

/-- R116, MOV r: copy ACC into the named register. -/
def execMovUnder (c : Config) (r : Byte) (s : State) : Result :=
  withRegister c c.movTargets r s fun x => s.writeReg x s.acc.toNat

/-- R116 at the default parameters. -/
def execMov (r : Byte) (s : State) : Result := execMovUnder Config.spec r s

end Sys2Proof.Machine
end

