-- ==== Sys2Proof/Machine/Dispatch.lean ====
section
/-!
DEFINITION. Step 5 of the cycle (spec 70_reset_and_hazards.md R195): one arm per opcode of
30_encoding.md R80, each one call of that instruction's meaning.
-/

namespace Sys2Proof.Machine

def exec (i : Instr) (s : State) : Host.Outcome State Fault Refusal :=
  match i with
  | .endRun ignored => Sys2Proof.Machine.execEndRun ignored s
  | .ldm n => Sys2Proof.Machine.execLdm n s
  | .ldr n => Sys2Proof.Machine.execLdr n s
  | .ldd a => Sys2Proof.Machine.execLdd a s
  | .ldi a => Sys2Proof.Machine.execLdi a s
  | .ldx a => Sys2Proof.Machine.execLdx a s
  | .sto a => Sys2Proof.Machine.execSto a s
  | .mov r => Sys2Proof.Machine.execMov r s
  | .adda a => Sys2Proof.Machine.execAdda a s
  | .addn n => Sys2Proof.Machine.execAddn n s
  | .suba a => Sys2Proof.Machine.execSuba a s
  | .subn n => Sys2Proof.Machine.execSubn n s
  | .inc r => Sys2Proof.Machine.execInc r s
  | .dec r => Sys2Proof.Machine.execDec r s
  | .cmpa a => Sys2Proof.Machine.execCmpa a s
  | .cmpn n => Sys2Proof.Machine.execCmpn n s
  | .cmi a => Sys2Proof.Machine.execCmi a s
  | .jmp a => Sys2Proof.Machine.execJmp a s
  | .jpe a => Sys2Proof.Machine.execJpe a s
  | .jpn a => Sys2Proof.Machine.execJpn a s
  | .inp ignored => Sys2Proof.Machine.execInp ignored s
  | .outp ignored => Sys2Proof.Machine.execOutp ignored s
  | .anda a => Sys2Proof.Machine.execAnda a s
  | .andn n => Sys2Proof.Machine.execAndn n s
  | .ora a => Sys2Proof.Machine.execOra a s
  | .orn n => Sys2Proof.Machine.execOrn n s
  | .xora a => Sys2Proof.Machine.execXora a s
  | .xorn n => Sys2Proof.Machine.execXorn n s
  | .lsl n => Sys2Proof.Machine.execLsl n s
  | .lsr n => Sys2Proof.Machine.execLsr n s
  | .brk ignored => Sys2Proof.Machine.execBrk ignored s
  | .err code => Sys2Proof.Machine.execErr code s

end Sys2Proof.Machine
end

