-- ==== Sys2Proof/Machine/Step.lean ====
section
/-!
DEFINITION. The fetch-execute cycle (spec 70_reset_and_hazards.md R195), `runNextInstruction()`, at the
default parameters. The three outcomes are those of 60_exceptions.md R170, an End signal being recorded
in the next state.
-/

namespace Sys2Proof.Machine

/-- One step (R195). -/
def step (s : State) : Host.Outcome State Fault Refusal := cycle Config.spec exec s

/-- `s` with the instruction whose bits are `w` placed where `step` fetches next (log 31). -/
def State.withFetchWord (s : State) (nbits w : Nat) : State :=
  s.placeAtPc (BitVec.ofNat 16 (w % 2 ^ nbits))

end Sys2Proof.Machine
end

