-- ==== Sys2Proof/Machine/Assembler.lean ====
section
/-!
DEFINITION. The assembler's surface syntax and its mapping from source lines to cells (spec
30_encoding.md R90 to R105): surrounding software that the scope (00_scope.md R4) takes in and the
processor does not depend on. `translate` is a pure, total function of the source text.
-/

namespace Sys2Proof.Machine.Assembler

/-- Source text, a token or a name, as characters. -/
abbrev Text := List Char

/-- What a diagnostic says (R102); a label collision (R93) has no name in that list, log 36. -/
inductive Complaint where
  | malformedInstruction
  | unrecognizedOpcode
  | unrecognizedRegister
  | undefinedLabel (name : Text)
  | duplicateLabel (name : Text)
  | labelCollision (name : Text)
  | operandOutOfRange
  | tooManyTokens
  | programTooLong
deriving DecidableEq, Repr

/-- A diagnostic of one source line, numbered as in R91. -/
structure Diagnostic where
  line      : Nat
  complaint : Complaint
deriving DecidableEq, Repr

/-- A label and the address it is bound to (R93). -/
structure Label where
  name    : Text
  address : Nat
deriving DecidableEq, Repr

/-- What `translate` gives (R90): the image, 256 cells or empty, and what reaches the two hooks. -/
structure Translation where
  image       : List Word
  labels      : List Label
  diagnostics : List Diagnostic
deriving DecidableEq, Repr

/-! ### Shapes and mnemonics -/

/-- The four operand shapes of opcodes (R75). -/
inductive Shape where
  | none | number | address | register
deriving DecidableEq, Repr

/-- The shape of every opcode (R75; ERR's is decision D19). -/
def shapeOf : Opcode → Shape
  | .ldm | .ldr | .addn | .subn | .cmpn | .andn | .orn | .xorn | .lsl | .lsr | .err => .number
  | .ldd | .ldi | .ldx | .sto | .adda | .suba | .cmpa | .cmi | .anda | .ora | .xora
  | .jmp | .jpe | .jpn => .address
  | .mov | .inc | .dec => .register
  | .inp | .outp | .endRun | .brk => .none

/-- What a source mnemonic stands for: one opcode, or the fifth shape, `AddressOrNumber` (R73, R95). -/
inductive SourceForm where
  | plain (o : Opcode)
  | addressOrNumber (a n : Opcode)
deriving DecidableEq, Repr

/-- The 26 source mnemonics (R95, decision D20). -/
def mnemonics : List (Text × SourceForm) :=
  [("LDM".toList, .plain .ldm), ("LDR".toList, .plain .ldr), ("LDD".toList, .plain .ldd),
   ("LDI".toList, .plain .ldi), ("LDX".toList, .plain .ldx), ("STO".toList, .plain .sto),
   ("MOV".toList, .plain .mov), ("ADD".toList, .addressOrNumber .adda .addn),
   ("SUB".toList, .addressOrNumber .suba .subn), ("INC".toList, .plain .inc),
   ("DEC".toList, .plain .dec), ("CMP".toList, .addressOrNumber .cmpa .cmpn),
   ("CMI".toList, .plain .cmi)] ++
  [("JMP".toList, .plain .jmp), ("JPE".toList, .plain .jpe), ("JPN".toList, .plain .jpn),
   ("IN".toList, .plain .inp), ("OUT".toList, .plain .outp),
   ("AND".toList, .addressOrNumber .anda .andn), ("OR".toList, .addressOrNumber .ora .orn),
   ("XOR".toList, .addressOrNumber .xora .xorn), ("LSL".toList, .plain .lsl),
   ("LSR".toList, .plain .lsr), ("END".toList, .plain .endRun), ("BRK".toList, .plain .brk),
   ("ERR".toList, .plain .err)]

/-- The register names MOV, INC and DEC accept (R98). -/
def registerNames : List (Text × RegName) := [("ACC".toList, .acc), ("IX".toList, .ix)]

/-- The reserved register names (R93, decision D20). -/
def reservedRegisters : List Text :=
  ["ACC".toList, "IX".toList, "PC".toList, "MAR".toList, "MDR".toList, "CIR".toList, "SR".toList]

/-- What a table gives for a name. -/
def lookup {α : Type} (name : Text) : List (Text × α) → Option α
  | []            => none
  | (k, x) :: rest => if k = name then some x else lookup name rest

/-! ### Lines and tokens -/

/-- Removes a trailing comment (R91). -/
def stripComment : Text → Text
  | '/' :: '/' :: _ => []
  | c :: cs         => c :: stripComment cs
  | []              => []

/-- The tokens of a line, split at whitespace (R92; which characters are whitespace: log 38). -/
def tokensOf (line : Text) : List Text :=
  ((stripComment line).splitOnP Char.isWhitespace).filter fun t => !t.isEmpty

/-- The surviving lines, as their tokens (R91): comments and blanks removed, empty lines discarded. -/
def survivingLines (source : Text) : List (List Text) :=
  ((source.splitOnP fun c => c == '\n').map tokensOf).filter fun l => !l.isEmpty

/-- "First character in `[A-Za-z_$]`" (R93). -/
def isNameStart (c : Char) : Bool := c.isAlpha || c == '_' || c == '$'

/-- "Subsequent characters in `[A-Za-z0-9_$]`" (R93). -/
def isNameChar (c : Char) : Bool := isNameStart c || c.isDigit

/-- The lexical form of an identifier (R93). -/
def isIdentifier : Text → Bool
  | []      => false
  | c :: cs => isNameStart c && cs.all isNameChar

/-- The name a token defines by the `identifier:` syntax (R93). -/
def definedName (token : Text) : Option Text :=
  match token.reverse with
  | ':' :: back => if isIdentifier back.reverse then some back.reverse else none
  | _           => none

/-- A line's label definition, if its first token is one, and what follows it (R92). -/
def splitLabel : List Text → Option Text × List Text
  | []        => (none, [])
  | t :: rest =>
    match definedName t with
    | some name => (some name, rest)
    | none      => (none, t :: rest)

/-! ### Literals and operands -/

/-- The value of one digit character; lower-case hexadecimal digits as `LITERAL_LEXIS` says (R96, log 24). -/
def digitValue (lexis : LiteralLexis) (c : Char) : Option Nat :=
  if '0' ≤ c ∧ c ≤ '9' then some (c.toNat - '0'.toNat)
  else if 'A' ≤ c ∧ c ≤ 'F' then some (c.toNat - 'A'.toNat + 10)
  else if lexis.lowerCaseHex ∧ 'a' ≤ c ∧ c ≤ 'f' then some (c.toNat - 'a'.toNat + 10)
  else none

/-- The number a string of digits stands for, `none` on a digit beyond the base (R96). -/
def digitsValue (lexis : LiteralLexis) (base : Nat) (sofar : Nat) : Text → Option Nat
  | []      => some sofar
  | c :: cs =>
    match digitValue lexis c with
    | some d => if d < base then digitsValue lexis base (sofar * base + d) cs else none
    | none   => none

/-- What an operand token reads as. -/
inductive Parsed where
  | value (b : Byte)
  | outOfRange
  | notThis
deriving DecidableEq, Repr

/-- A number range-checked to [0,255] (R96, R97). -/
def rangeChecked : Option Nat → Parsed
  | some v => if v ≤ 255 then .value (BitVec.ofNat 8 v) else .outOfRange
  | none   => .notThis

/-- A non-empty string of digits in a base; an empty one as `LITERAL_LEXIS` says (log 24). -/
def parseDigits (lexis : LiteralLexis) (base : Nat) (digits : Text) : Parsed :=
  if digits.isEmpty ∧ ¬lexis.emptyDigits then .notThis
  else rangeChecked (digitsValue lexis base 0 digits)

/-- A number literal: prefix `#` base 10, `B` base 2, `&` base 16 (R96, conflict C7). -/
def parseNumber (lexis : LiteralLexis) : Text → Parsed
  | '#' :: ds => parseDigits lexis 10 ds
  | 'B' :: ds => parseDigits lexis 2 ds
  | '&' :: ds => parseDigits lexis 16 ds
  | _         => .notThis

/-- The address of a label, the first binding winning (log 36). -/
def addressOf (labels : List Label) (name : Text) : Option Nat :=
  (labels.find? fun l => l.name = name).map Label.address

/-- What an operand token gives a mnemonic (R96 to R99). -/
inductive Operand where
  | byte (b : Byte)
  /-- The token has the shape asked for and is complained of: "operand defaults to 0 so encoding can
  still proceed" (R97). That an operand out of range and an unknown register do the same is DESIGN CHOICE,
  log 36. -/
  | faulty (c : Complaint)
  /-- The token has another shape (R99). -/
  | wrongShape
deriving DecidableEq, Repr

/-- A number operand (R96, R99). -/
def numberOperand (lexis : LiteralLexis) (t : Text) : Operand :=
  match parseNumber lexis t with
  | .value b    => .byte b
  | .outOfRange => .faulty .operandOutOfRange
  | .notThis    => .wrongShape

/-- An address operand: a bare base-10 integer or a label (R97). A reserved register name or a mnemonic
has a label's form and can be no label; it is complained of as an undefined label: DESIGN CHOICE, log 36. -/
def addressOperand (lexis : LiteralLexis) (labels : List Label) (t : Text) : Operand :=
  if isIdentifier t then
    match addressOf labels t with
    | some a => .byte (BitVec.ofNat 8 a)
    | none   => .faulty (.undefinedLabel t)
  else
    match parseDigits lexis 10 t with
    | .value b    => .byte b
    | .outOfRange => .faulty .operandOutOfRange
    | .notThis    => .wrongShape

/-- The operand byte that names a register under `REG_CODE` (R98, R22). -/
def registerByte (c : Config) (x : RegName) : Option Byte :=
  ((List.range 256).map (BitVec.ofNat 8)).find? fun b => c.regCode b = some x

/-- The registers an opcode accepts by name: for MOV those of `MOV_TARGETS` (R98, R83). -/
def acceptedRegisters (c : Config) (o : Opcode) : List RegName :=
  if o = .mov then c.movTargets else [.acc, .ix]

/-- A register operand (R98). -/
def registerOperand (c : Config) (o : Opcode) (t : Text) : Operand :=
  match ((lookup t registerNames).filter fun x => x ∈ acceptedRegisters c o).bind (registerByte c) with
  | some b => .byte b
  | none   => .faulty .unrecognizedRegister

/-! ### Instructions -/

/-- One assembled line: its instruction and the complaints about it. -/
abbrev Assembled := Instr × List Complaint

/-- The placeholder of a line that cannot be encoded, "so pass 2 has something to emit" (R99). Its
operand 0, and its use for any complaint but a malformed instruction, are DESIGN CHOICE, log 36. -/
def rejected (c : Complaint) : Assembled := (.err 0, [c])

/-- An opcode with its operand; a wrong shape makes the placeholder (R99). -/
def withOperand (o : Opcode) : Operand → Assembled
  | .byte b     => (o.toInstr b, [])
  | .faulty c   => (o.toInstr 0, [c])
  | .wrongShape => rejected .malformedInstruction

/-- The operand of an `AddressOrNumber` mnemonic (R99): the number literal wins where it parses
(decision D21, log 24); a literal out of range gives way to a label of that name (log 36). -/
def addressOrNumberOperand (lexis : LiteralLexis) (labels : List Label) (a n : Opcode) (t : Text) :
    Assembled :=
  match parseNumber lexis t with
  | .value b    => withOperand n (.byte b)
  | .notThis    => withOperand a (addressOperand lexis labels t)
  | .outOfRange =>
    match addressOperand lexis labels t with
    | .byte b => withOperand a (.byte b)
    | _       => withOperand n (.faulty .operandOutOfRange)

/-- A mnemonic's operands against its declared shape (R99). -/
def assembleForm (c : Config) (labels : List Label) : SourceForm → List Text → Assembled
  | .plain o, ts =>
    match shapeOf o, ts with
    | .none, []      => (o.toInstr 0, [])
    | .number, [t]   => withOperand o (numberOperand c.literalLexis t)
    | .address, [t]  => withOperand o (addressOperand c.literalLexis labels t)
    | .register, [t] => withOperand o (registerOperand c o t)
    | _, _           => rejected .malformedInstruction
  | .addressOrNumber a n, [t] => addressOrNumberOperand c.literalLexis labels a n t
  | .addressOrNumber _ _, _ => rejected .malformedInstruction

/-- A line whose first word is no mnemonic: a literal line, the word END with the literal as operand,
if the entire content is one number literal (R100). A literal followed by further tokens is complained
of as an unrecognized opcode, and in pass 2 a data line whose literal is out of range, or a line whose first
word is no mnemonic and no literal, holds the placeholder ERR 0: DESIGN CHOICE, log 36. -/
def assembleLiteral (lexis : LiteralLexis) : List Text → Assembled
  | [t] =>
    match parseNumber lexis t with
    | .value b    => (.endRun b, [])
    | .outOfRange => rejected .operandOutOfRange
    | .notThis    => rejected .unrecognizedOpcode
  | _ => rejected .unrecognizedOpcode

/-- What follows the label of a line (R92): nothing, which is END 0 (R94), a mnemonic with its
operand, or a literal. -/
def assembleBody (c : Config) (labels : List Label) : List Text → Assembled
  | []        => (.endRun 0, [])
  | t :: rest =>
    match lookup t mnemonics with
    | some form => assembleForm c labels form rest
    | none      => assembleLiteral c.literalLexis (t :: rest)

/-- Pass 2 on one line (R92, R101), under any parameters. A line of too many tokens holds the placeholder
ERR 0: DESIGN CHOICE, log 36. -/
def assembleLineUnder (c : Config) (labels : List Label) (tokens : List Text) : Assembled :=
  if tokens.length > 3 then rejected .tooManyTokens
  else assembleBody c labels (splitLabel tokens).2

/-- Pass 2 on one line at the default parameters. -/
def assembleLine (labels : List Label) (tokens : List Text) : Assembled :=
  assembleLineUnder Config.spec labels tokens

/-! ### The two passes -/

/-- The complaint about a label definition, given the labels before it (R93). -/
def labelComplaint (labels : List Label) (name : Text) : Option Complaint :=
  if name ∈ reservedRegisters ∨ (lookup name mnemonics).isSome then some (.labelCollision name)
  else if (addressOf labels name).isSome then some (.duplicateLabel name)
  else none

/-- Pass 1 (R93): the label table and the diagnostics about definitions, from line `k` on. A definition
complained of, a collision or a second one, is left out of the table: DESIGN CHOICE, log 36. -/
def collectLabels (k : Nat) (labels : List Label) : List (List Text) → List Label × List Diagnostic
  | []           => (labels, [])
  | line :: rest =>
    match (splitLabel line).1 with
    | none      => collectLabels (k + 1) labels rest
    | some name =>
      match labelComplaint labels name with
      | none   => collectLabels (k + 1) (labels ++ [{ name := name, address := k }]) rest
      | some c =>
        let out := collectLabels (k + 1) labels rest
        (out.1, { line := k, complaint := c } :: out.2)

/-- The diagnostics of pass 2, from line `k` on (R90: those of all offending lines). -/
def lineDiagnostics (c : Config) (labels : List Label) (k : Nat) : List (List Text) → List Diagnostic
  | []           => []
  | line :: rest =>
    (assembleLineUnder c labels line).2.map (fun x => { line := k, complaint := x })
      ++ lineDiagnostics c labels (k + 1) rest

/-- The cells of the lines, the rest of the 256 at 0x0000 (R101, decision D23). -/
def imageOf (c : Config) (labels : List Label) (lines : List (List Text)) : List Word :=
  lines.map (fun line => encodeWith c.opcodeMap (assembleLineUnder c labels line).1)
    ++ List.replicate (Config.memCells - lines.length) 0

/-- `translate(source)` (R90, R91, R101) under any parameters: all-or-nothing in the image. The label table of a source of
more than 256 lines, of which R91 fixes the diagnostic and the image only, is empty: DESIGN CHOICE, log 36. -/
def translateUnder (c : Config) (source : Text) : Translation :=
  let lines := survivingLines source
  if lines.length > Config.memCells then
    { image := [], labels := [], diagnostics := [{ line := 0, complaint := .programTooLong }] }
  else
    let pass1 := collectLabels 0 [] lines
    let complaints := pass1.2 ++ lineDiagnostics c pass1.1 0 lines
    { image := if complaints.isEmpty then imageOf c pass1.1 lines else [],
      labels := pass1.1,
      diagnostics := complaints }

/-- `translate(source)` at the default parameters (R90). -/
def translate (source : Text) : Translation := translateUnder Config.spec source

/-! ### Disassembly -/

/-- Does the source form emit this opcode? -/
def SourceForm.emits (f : SourceForm) (o : Opcode) : Bool :=
  match f with
  | .plain p             => p == o
  | .addressOrNumber a n => a == o || n == o

/-- The source mnemonic of an opcode (R95). -/
def sourceName (o : Opcode) : Option Text :=
  (mnemonics.find? fun e => e.2.emits o).map Prod.fst

/-- A register's name, for the operand byte that names one (R104). -/
def registerText (c : Config) (b : Byte) : Option Text :=
  (c.regCode b).bind fun x => (registerNames.find? fun e => e.2 == x).map Prod.fst

/-- The operand of an instruction as text, by the opcode's shape (R104); a register byte that names
no register has no text (log 37). -/
def operandText (c : Config) (o : Opcode) (b : Byte) : Option (List Text) :=
  match shapeOf o with
  | .none     => some []
  | .number   => some ['#' :: Nat.toDigits 10 b.toNat]
  | .address  => some [Nat.toDigits 10 b.toNat]
  | .register => (registerText c b).map fun t => [t]

/-- The tokens of a cell printed as text (R104), under any parameters; a cell whose opcode byte is illegal
has none (log 37). -/
def disassembleUnder (c : Config) (w : Word) : Option (List Text) :=
  match decodeWith c.opcodeMap w with
  | .unrecognizedOpcode _ => none
  | .instr i =>
    match sourceName i.opcode, operandText c i.opcode i.operand with
    | some m, some ts => some (m :: ts)
    | _, _            => none

/-- The tokens of a cell at the default parameters (R104). -/
def disassemble (w : Word) : Option (List Text) := disassembleUnder Config.spec w

/-- An opcode and an operand as one 16-bit number for the host's `loadMemory` (R90, R101). -/
def imageNumbers (t : Translation) : List Nat := t.image.map BitVec.toNat

end Sys2Proof.Machine.Assembler
end

