-- ==== Sys2Proof/Machine/Parametric.lean ====
section
/-!
DEFINITION. The machine under any parameters (spec 00_scope.md R7): the dispatch and the step with the
configuration as an argument, so that a claim can quantify over OPCODE_MAP, REG_CODE, MOV_TARGETS,
MEMVAL, MAR_BITS, PC_OVERRUN, INCDEC_WRAP_FLAGS, SHIFT_LARGE, CMI_MODE, ERR_KIND and INPUT_BITS.
`exec` and `step` are these at `Config.spec` (Laws/Parametric.lean).
-/

namespace Sys2Proof.Machine

/-- Step 5 of the cycle under any parameters (R195). -/
def execUnder (c : Config) (i : Instr) (s : State) : Result :=
  match i with
  | .endRun ignored => execEndRun ignored s
  | .ldm n => execLdm n s
  | .ldr n => execLdr n s
  | .ldd a => execLddUnder c a s
  | .ldi a => execLdiUnder c a s
  | .ldx a => execLdxUnder c a s
  | .sto a => execSto a s
  | .mov r => execMovUnder c r s
  | .adda a => execAddaUnder c a s
  | .addn n => execAddn n s
  | .suba a => execSubaUnder c a s
  | .subn n => execSubn n s
  | .inc r => execIncUnder c r s
  | .dec r => execDecUnder c r s
  | .cmpa a => execCmpaUnder c a s
  | .cmpn n => execCmpn n s
  | .cmi a => execCmiUnder c a s
  | .jmp a => execJmp a s
  | .jpe a => execJpe a s
  | .jpn a => execJpn a s
  | .inp ignored => execInpUnder c ignored s
  | .outp ignored => execOutp ignored s
  | .anda a => execAndaUnder c a s
  | .andn n => execAndn n s
  | .ora a => execOraUnder c a s
  | .orn n => execOrn n s
  | .xora a => execXoraUnder c a s
  | .xorn n => execXorn n s
  | .lsl n => execLslUnder c n s
  | .lsr n => execLsrUnder c n s
  | .brk ignored => execBrk ignored s
  | .err code => execErrUnder c code s

/-- One step under any parameters (R195). -/
def stepUnder (c : Config) (s : State) : Result := cycle c (execUnder c) s

end Sys2Proof.Machine
end

