-- ==== Sys2Proof/Machine/Entry.lean ====
section
/-!
DEFINITION. The host's entry points (spec 60_exceptions.md R184), besides `runNextInstruction`, which
is `step`: construction (10_state.md R40), `loadMemory` (20_memory.md R64), `clearMemory` (R41), the
reads (R39), and `runCode` (70_reset_and_hazards.md R196) under the caller's step budget (R205).
An argument outside its range gives no processor (R40) or is refused (decision D23, log 20).
-/

namespace Sys2Proof.Machine

/-- Writes an image over the memory `base` from cell `a` on (R64). -/
def imageMemory (base : Memory) (a : Nat) : List Nat → Memory
  | []      => base
  | w :: ws => (imageMemory base (a + 1) ws).writeWord (BitVec.ofNat 8 a) (BitVec.ofNat 16 w)

/-- An image the machine accepts (R40, R64): at most 256 cells, each a 16-bit number. -/
def imageValid (image : List Nat) : Bool :=
  decide (image.length ≤ Config.memCells) && image.all fun w => decide (w ≤ 65535)

/-- The memory of an image, the cells it does not cover as in `base` (R64, R40). -/
def memoryOfImage (base : Memory) (image : List Nat) : Option Memory :=
  if imageValid image then some (imageMemory base 0 image) else none

/-- The construction arguments, each optional (R40, R184). -/
structure ConstructArgs where
  memory : Option (List Nat) := none
  pc     : Option Nat := none
  acc    : Option Nat := none
  ix     : Option Nat := none
  sr     : Option (List Char) := none
deriving DecidableEq, Repr

/-- A register argument: the default when left out, none when outside [0,255] (R40). -/
def registerArg (default : Nat) : Option Nat → Option Nat
  | none   => some default
  | some v => if v ≤ 255 then some v else none

/-- The SR argument (R32, R40). -/
def srArg (layout : SrLayout) (default : Flags) : Option (List Char) → Option Flags
  | none    => some default
  | some cs => Flags.ofText layout cs

/-- The memory argument: the default where it is left out, and in the cells the image does not cover (R40). -/
def memoryArg (default : Memory) : Option (List Nat) → Option Memory
  | none       => some default
  | some image => memoryOfImage default image

/-- Construction (R40) under any parameters: reset with the arguments given, stored plainly without the
accumulator write's flag effects; none is the "fatal construction error". -/
def constructUnder (c : Config) (args : ConstructArgs) : Option State :=
  let r := State.resetUnder c
  match memoryArg r.mem args.memory, registerArg r.pc.toNat args.pc, registerArg r.acc.toNat args.acc,
      registerArg r.ix.toNat args.ix, srArg c.srLayout r.sr args.sr with
  | some m, some pc, some acc, some ix, some sr =>
    some { r with
            mem := m, pc := BitVec.ofNat 9 pc, acc := BitVec.ofNat 8 acc,
            ix := BitVec.ofNat 8 ix, sr := sr }
  | _, _, _, _, _ => none

/-- Construction at the default parameters (R40). -/
def construct (args : ConstructArgs) : Option State := constructUnder Config.spec args

/-- `loadMemory(image)` (R64): all 256 cells are written, those past the image with 0x0000 (D23, log 20), no
register; none where the image is refused. -/
def loadMemory (image : List Nat) (s : State) : Option State :=
  match memoryOfImage Memory.clear image with
  | some m => some { s with mem := m }
  | none   => none

/-- `clearMemory()` (R41) under any parameters: every cell at one value, no register changed. -/
def clearMemoryUnder (c : Config) (s : State) : State :=
  { s with mem := Memory.filled c.resetValues.cleared }

/-- `clearMemory()` at the default parameters: every cell 0x0000 (R41). -/
def clearMemory (s : State) : State := clearMemoryUnder Config.spec s

/-- `getMemoryAt(addr)` (R39); none outside [0,255] (D23). -/
def getMemoryAt (addr : Nat) (s : State) : Option Word :=
  if addr < Config.memCells then some (s.mem.cellAt (BitVec.ofNat 8 addr)) else none

/-- `getMemorySlice(start?, end?)` (R39): the cells from `start` up to `end`, by default 0 and 256
(D23); no cell when `start` is not below `end`, none when a bound is past 256 (DESIGN CHOICE, log 34). -/
def getMemorySlice (first last : Option Nat) (s : State) : Option (List Word) :=
  let lo := first.getD 0
  let hi := last.getD Config.memCells
  if lo ≤ Config.memCells ∧ hi ≤ Config.memCells then
    some ((List.range (hi - lo)).map fun k => s.mem.cellAt (BitVec.ofNat 8 (lo + k)))
  else none

/-- `getRegisters()` (R39). -/
def getRegisters (s : State) : Registers := s.registers

/-- SR as the number the host reads (R30), under any parameters. -/
def getStatusUnder (c : Config) (s : State) : BitVec 4 := s.sr.toBits c.srLayout

/-- SR as the number the host reads, at the default parameters. -/
def getStatus (s : State) : BitVec 4 := getStatusUnder Config.spec s

/-- How a `runCode` under a step budget comes out (R196, R205). -/
inductive RunResult where
  /-- A step signalled End (R198): the reason and the final state. -/
  | ended (reason : EndReason) (final : State)
  /-- The run left by a hard failure (R196). -/
  | faulted (reason : Fault)
  /-- The run met a refusal: a start address outside [0,255] (D23). -/
  | refused (reason : Refusal)
  /-- The caller's budget ran out first (R205). -/
  | outOfBudget (reached : State)
deriving DecidableEq, Repr

/-- The loop of `runCode` (R196) over a step function: steps until one signals End. -/
def runLoop (next : State → Result) : Nat → State → RunResult
  | 0, s => .outOfBudget s
  | k + 1, s =>
    match next s with
    | .next t =>
      match t.ended with
      | some reason => .ended reason t
      | none        => runLoop next k t
    | .fault r   => .faulted r
    | .refused r => .refused r

/-- `runCode(startPC)` (R196) over a step function, with at most `budget` steps. -/
def runFrom (next : State → Result) (budget startPc : Nat) (s : State) : RunResult :=
  if startPc < Config.memCells then runLoop next budget { s with pc := BitVec.ofNat 9 startPc }
  else .refused .hostArgument

/-- `runCode(startPC)` (R196) with at most `budget` steps, under any parameters. -/
def runCodeUnder (c : Config) (budget startPc : Nat) (s : State) : RunResult :=
  runFrom (stepUnder c) budget startPc s

/-- `runCode(startPC)` (R196) with at most `budget` steps, at the default parameters. -/
def runCode (budget startPc : Nat) (s : State) : RunResult := runFrom step budget startPc s

/-- `runCode()` with the default start address 0 (`DEFAULT_START_PC`, R6, R192). -/
def runCodeFromZero (budget : Nat) (s : State) : RunResult := runCode budget 0 s

end Sys2Proof.Machine
end

