-- ==== Sys2Proof/Safety.lean ====
section
/-!
DEFINITION. The terms claims are stated in: the invariant of the machine, what a safe run and a
successful end are (spec 60_exceptions.md R175, R176; 45_end_brk_err.md R164), the effect of an
accumulator write as a relation (10_state.md R33, 41_arithmetic.md R126), and the groups of
instructions of one shape that the frame statements speak of.
-/

namespace Sys2Proof.Machine

/-- What every state of a run satisfies: PC in [0,256] (R24), the memory in its canonical form (log 25). -/
abbrev State.Inv (s : State) : Prop := s.pc.toNat ≤ Config.memCells ∧ s.mem.wf

/-- The cell the next step fetches, while PC is below 256 (R195). -/
def State.nextCell (s : State) : Word := s.mem.cellAt (pcAddress s.pc)

/-- No hard failure and no refusal within `k` steps, or the run ended before (R176, R198). -/
def safeFor : Nat → State → Prop
  | 0, _     => True
  | k + 1, s =>
    match step s with
    | .next t    => t.ended.isSome ∨ safeFor k t
    | .fault _   => False
    | .refused _ => False

/-- "A model's notion of a good final state should accept End(Success) only" (R164). -/
def RunResult.successful : RunResult → Bool
  | .ended .success _    => true
  | .ended .breakpoint _ => false
  | .ended (.error _) _  => false
  | .faulted _           => false
  | .refused _           => false
  | .outOfBudget _       => false

/-- Every half of every cell reads the same in both states (R50). -/
def sameCells (s t : State) : Prop :=
  ∀ a : Byte, t.mem.opcodeAt a = s.mem.opcodeAt a ∧ t.mem.operandAt a = s.mem.operandAt a

/-- The effect of giving the exact integer `value` to the accumulator, as the table of R126 has it:
what ACC and each flag are after, everything else unchanged. -/
def AccWritten (value : Int) (s t : State) : Prop :=
  t = { s with acc := t.acc, sr := t.sr } ∧
  (t.acc.toNat : Int) = value % 256 ∧
  (255 < value → t.sr = { z := s.sr.z, c := true, v := true, n := false }) ∧
  (value < 0 → t.sr = { z := s.sr.z, c := false, v := true, n := true }) ∧
  (0 ≤ value ∧ value ≤ 255 → t.sr = { z := false, c := s.sr.c, v := s.sr.v, n := s.sr.n })

/-- The four binary digits of SR in the default layout, N leftmost (R32, decision D5, log 4). -/
def Flags.digits (f : Flags) : List Char :=
  [if f.n then '1' else '0', if f.v then '1' else '0', if f.c then '1' else '0', if f.z then '1' else '0']

/-- The construction arguments in range (R40): registers at most 255, SR four binary digits, an image of
at most 256 cells of 16 bits; an argument left out is in range. -/
def ConstructArgs.inRange (args : ConstructArgs) : Prop :=
  (∀ v, args.pc = some v ∨ args.acc = some v ∨ args.ix = some v → v ≤ 255) ∧
  (∀ text, args.sr = some text → ∃ f : Flags, text = f.digits) ∧
  ∀ image, args.memory = some image → image.length ≤ 256 ∧ ∀ w ∈ image, w ≤ 65535

/-- The first `k` single steps from `s` all give a next state, and none of them reports an End (R197). -/
def goesOnFor (k : Nat) (s : State) : Prop :=
  ∀ j, j < k → ∃ u, core.run (j + 1) s = .next u ∧ u.ended = none

/-- Two states that differ at most in what no instruction reads: C, V, N (R31) and MAR (R27). -/
def agreeOnWhatIsRead (s t : State) : Prop :=
  t = { s with sr := t.sr, mar := t.mar } ∧ t.sr.z = s.sr.z

end Sys2Proof.Machine

namespace Sys2Proof

/-- The instructions whose only writes are ACC and SR and that call no channel (R21). -/
def Instr.writesAccOnly : Instr → Bool
  | .ldm _ | .ldd _ | .ldi _ | .ldx _ | .adda _ | .addn _ | .suba _ | .subn _
  | .anda _ | .andn _ | .ora _ | .orn _ | .xora _ | .xorn _ | .lsl _ | .lsr _ => true
  | .endRun _ | .ldr _ | .sto _ | .mov _ | .inc _ | .dec _ | .cmpa _ | .cmpn _ | .cmi _
  | .jmp _ | .jpe _ | .jpn _ | .inp _ | .outp _ | .brk _ | .err _ => false

/-- Of those, the ones whose result is always in range, so that no flag but Z changes (R110, R112 to
R114, R158, R157). -/
def Instr.alwaysInRange : Instr → Bool
  | .ldm _ | .ldd _ | .ldi _ | .ldx _ | .anda _ | .andn _ | .ora _ | .orn _ | .xora _ | .xorn _
  | .lsr _ => true
  | .adda _ | .addn _ | .suba _ | .subn _ | .lsl _
  | .endRun _ | .ldr _ | .sto _ | .mov _ | .inc _ | .dec _ | .cmpa _ | .cmpn _ | .cmi _
  | .jmp _ | .jpe _ | .jpn _ | .inp _ | .outp _ | .brk _ | .err _ => false

/-- The compares (R130 to R132). -/
def Instr.isCompare : Instr → Bool
  | .cmpa _ | .cmpn _ | .cmi _ => true
  | .endRun _ | .ldm _ | .ldr _ | .ldd _ | .ldi _ | .ldx _ | .sto _ | .mov _ | .adda _ | .addn _
  | .suba _ | .subn _ | .inc _ | .dec _ | .jmp _ | .jpe _ | .jpn _ | .inp _ | .outp _ | .anda _
  | .andn _ | .ora _ | .orn _ | .xora _ | .xorn _ | .lsl _ | .lsr _ | .brk _ | .err _ => false

/-- The jumps (R136). -/
def Instr.isJump : Instr → Bool
  | .jmp _ | .jpe _ | .jpn _ => true
  | .endRun _ | .ldm _ | .ldr _ | .ldd _ | .ldi _ | .ldx _ | .sto _ | .mov _ | .adda _ | .addn _
  | .suba _ | .subn _ | .inc _ | .dec _ | .cmpa _ | .cmpn _ | .cmi _ | .inp _ | .outp _ | .anda _
  | .andn _ | .ora _ | .orn _ | .xora _ | .xorn _ | .lsl _ | .lsr _ | .brk _ | .err _ => false

/-- The instructions that take a register operand (R22). -/
def Instr.takesRegister : Instr → Bool
  | .mov _ | .inc _ | .dec _ => true
  | .endRun _ | .ldm _ | .ldr _ | .ldd _ | .ldi _ | .ldx _ | .sto _ | .adda _ | .addn _
  | .suba _ | .subn _ | .cmpa _ | .cmpn _ | .cmi _ | .jmp _ | .jpe _ | .jpn _ | .inp _ | .outp _
  | .anda _ | .andn _ | .ora _ | .orn _ | .xora _ | .xorn _ | .lsl _ | .lsr _ | .brk _ | .err _ => false

/-- The instructions that talk to the host or to the run loop (R38, R175). -/
def Instr.reportsToHost : Instr → Bool
  | .inp _ | .outp _ | .endRun _ | .brk _ | .err _ => true
  | .ldm _ | .ldr _ | .ldd _ | .ldi _ | .ldx _ | .sto _ | .mov _ | .adda _ | .addn _ | .suba _
  | .subn _ | .inc _ | .dec _ | .cmpa _ | .cmpn _ | .cmi _ | .jmp _ | .jpe _ | .jpn _ | .anda _
  | .andn _ | .ora _ | .orn _ | .xora _ | .xorn _ | .lsl _ | .lsr _ => false

end Sys2Proof
end

