-- ==== Sys2Proof/Certificates/Slice0/Obligations.lean ====
section
/-!
DEFINITION. The statements about the machine. Each docstring names the rule of spec/ it formalises and,
where it rests on a choice the spec or the model marks as its own, the decision and the log entry.
-/

open Sys2Proof Sys2Proof.Machine

/-! ### Encoding (30_encoding.md) -/

/-- R71, R72, R8: the opcode half is the high byte, the operand half the low byte, and joining them is
`256 * opcode + operand`. -/
def Obligations.CellFieldsAreHighAndLowByte : Prop :=
  (∀ w : Word, (opcodeField w).toNat = w.toNat / 256 ∧ (operandField w).toNat = w.toNat % 256) ∧
  ∀ p n : Byte, (joinFields p n).toNat = 256 * p.toNat + n.toNat

/-- Words written out from the encodings of R80, one or more of every family, and the two ends of the
illegal range (vectors E1 to E13). The numbers are decision D1 (log 1). -/
def Obligations.WordsOfTheSpecDecode : Prop :=
  decode 0b0000000111001000 = .instr (.ldm 200) ∧ decode 0b0000011000101000 = .instr (.sto 40) ∧
  decode 0b0000011100000001 = .instr (.mov 1) ∧ decode 0b0000100101100100 = .instr (.addn 100) ∧
  decode 0b0001001000000111 = .instr (.jpe 7) ∧ decode 0b0001010010101011 = .instr (.inp 171) ∧
  decode 0b0001110100000111 = .instr (.lsr 7) ∧ decode 0b1111111100000111 = .instr (.err 7) ∧
  decode 0b0001111000000000 = .unrecognizedOpcode 0x1E ∧
  decode 0b1111110100000000 = .unrecognizedOpcode 0xFD

/-- R72, R81: for EVERY injective opcode map, decoding the cell of an instruction gives the instruction
back, with every operand at every value. -/
def Obligations.DecodeOfEncodeForEveryInjectiveOpcodeMap : Prop :=
  ∀ map : Opcode → Byte, Function.Injective map →
    ∀ i : Instr, decodeWith map (encodeWith map i) = .instr i

/-- R72: what a cell decodes to encodes to that cell, under any opcode map: decoding drops no bit. -/
def Obligations.EncodeOfDecodeForEveryOpcodeMap : Prop :=
  ∀ (map : Opcode → Byte) (w : Word) (i : Instr), decodeWith map w = .instr i → encodeWith map i = w

/-- R82: a cell is rejected exactly when its opcode half is one of 0x1E to 0xFD (the numbers are
decision D1, log 1). -/
def Obligations.IllegalOpcodesAre1EToFD : Prop :=
  ∀ w : Word, decode w = .unrecognizedOpcode (opcodeField w) ↔
    0x1E ≤ (opcodeField w).toNat ∧ (opcodeField w).toNat ≤ 0xFD

/-- R83, R84: an instruction completes in every state if it is well-formed, and takes the fault
`UnrecognizedRegister` in every state if it is not. The legal register codes are decisions D2 and D3
(log 2), the state at the fault D18 (log 18); that IN, OUT and BRK complete on every operand byte is D15
(log 15), that LSL and LSR complete for counts of 8 or more D11 (log 10). -/
def Obligations.WellFormedCompletesIllFormedFaults : Prop :=
  ∀ (i : Instr) (s : State),
    (i.wellFormed = true → ∃ t, exec i s = .next t) ∧
    (i.wellFormed = false → exec i s = .fault (.unrecognizedRegister s))

/-- R84: two cells with the same None-shape opcode decode to instructions with the same effect in every
state, whatever their operand bytes. For IN, OUT and BRK this is decision D15 (log 15). -/
def Obligations.NoneShapeOperandIsIgnored : Prop :=
  ∀ w w' : Word, opcodeField w = opcodeField w' →
    opcodeField w ∈ [(0x00 : Byte), 0x14, 0x15, 0xFE] →
    ∃ i i', decode w = .instr i ∧ decode w' = .instr i' ∧ ∀ s, exec i s = exec i' s

/-! ### Arithmetic primitives -/

/-- R9: `norm(v)` is `((v mod 256) + 256) mod 256` with `mod` truncating or flooring alike, and it is the
unique byte congruent to `v` modulo 256. -/
def Obligations.NormIsTheUniqueByteResidue : Prop :=
  ∀ v : Int,
    ((normalise v).toNat : Int) = Int.tmod (Int.tmod v 256 + 256) 256 ∧
    ((normalise v).toNat : Int) = Int.fmod (Int.fmod v 256 + 256) 256 ∧
    ∀ r : Byte, (r.toNat : Int) ≡ v [ZMOD 256] ↔ r = normalise v

/-! ### Reset and the invariant -/

/-- R40: what construction without arguments leaves. Zero everywhere is decision D13 (logs 12 and 13);
the End signal and the trace are the model's record (logs 26 and 27). -/
def Obligations.ResetIsZeroEverywhere : Prop :=
  State.reset.acc = 0 ∧ State.reset.ix = 0 ∧ State.reset.pc = 0 ∧ State.reset.mar = 0 ∧
  State.reset.mdr = 0 ∧ State.reset.cir = 0 ∧
  State.reset.sr = { z := false, c := false, v := false, n := false } ∧
  (∀ a : Byte, State.reset.mem.cellAt a = 0x0000) ∧
  State.reset.ended = none ∧ State.reset.trace = []

/-- PC in [0,256] (R24, decision D8, log 7) and memory in canonical form (log 25) hold at reset. -/
def Obligations.ResetSatisfiesInvariant : Prop := State.reset.Inv

/-- Every step from a state with PC in [0,256] (R24, decision D8, log 7) and memory in canonical form
(log 25) leads to such a state. -/
def Obligations.EveryStepKeepsInvariant : Prop :=
  ∀ s t : State, s.Inv → step s = .next t → t.Inv

/-! ### The step (70_reset_and_hazards.md, 60_exceptions.md) -/

/-- R195: when PC addresses a cell that decodes to `i`, a step is `exec i` after the four writes of the
fetch (MAR: decision D7, log 6; PC not normalised: D8, log 7; clearing the report of the step before is
the model's, log 26). -/
def Obligations.StepRunsTheDecodedInstruction : Prop :=
  ∀ (s : State) (i : Instr), s.pc.toNat < 256 → decode (s.mem.cellAt (s.pc.setWidth 8)) = .instr i →
    step s = exec i { s with
      mar := s.mem.cellAt (s.pc.setWidth 8)
      mdr := operandField (s.mem.cellAt (s.pc.setWidth 8))
      cir := opcodeField (s.mem.cellAt (s.pc.setWidth 8))
      pc := s.pc + 1
      ended := none }

/-- R171, R172, R173, R178: exactly when a step takes which hard failure, and the state it leaves. The
opcode numbers are D1, the register codes D2 and D3, the fetch at 256 D8, the state left D18 (logs 1,
2, 7, 18); that IN, OUT and BRK fault on no operand byte is D15 (log 15). The values of PC above 256, which
no run reaches, are the model's (log 30). -/
def Obligations.StepFaultsExactlyAsListed : Prop :=
  ∀ (s : State) (r : Fault), step s = .fault r ↔
    (256 ≤ s.pc.toNat ∧ r = .fetchOutOfRange s) ∨
    (s.pc.toNat < 256 ∧
      0x1E ≤ (s.mem.opcodeAt (s.pc.setWidth 8)).toNat ∧
      (s.mem.opcodeAt (s.pc.setWidth 8)).toNat ≤ 0xFD ∧
      r = .unrecognizedOpcode (s.fetched s.nextCell)) ∨
    (s.pc.toNat < 256 ∧
      s.mem.opcodeAt (s.pc.setWidth 8) ∈ [(0x07 : Byte), 0x0C, 0x0D] ∧
      2 ≤ (s.mem.operandAt (s.pc.setWidth 8)).toNat ∧
      r = .unrecognizedRegister (s.fetched s.nextCell))

/-- R176: the state a fault leaves. At the fetch nothing has changed; at the dispatch MAR, MDR, CIR and
PC are the fetch's and ACC, IX, SR, every cell and the trace are as before the step (decision D18, log
18). `MalformedInstruction` is never raised (R174). -/
def Obligations.FaultLeavesOnlyTheFetchWrites : Prop :=
  ∀ (s : State) (r : Fault), step s = .fault r →
    match r with
    | .fetchOutOfRange l => l = s
    | .malformedInstruction _ => False
    | .unrecognizedOpcode l | .unrecognizedRegister l =>
      l.pc.toNat = s.pc.toNat + 1 ∧ l.mar = s.nextCell ∧
      l.mdr = operandField s.nextCell ∧ l.cir = opcodeField s.nextCell ∧
      l.acc = s.acc ∧ l.ix = s.ix ∧ l.sr = s.sr ∧ l.trace = s.trace ∧ sameCells s l

/-- R170: no step refuses; it ends in a next state (with or without an End signal) or in a fault. -/
def Obligations.NoStepRefuses : Prop :=
  ∀ s : State, (∃ t, step s = .next t) ∨ ∃ r, step s = .fault r

/-- R25: PC after a step that goes on, by the instruction it ran: the operand for JMP, for JPE when Z is
set and for JPN when Z is clear, the incremented value for every other, which is 256 after address 255
(decision D8, log 7); and the incremented value after a hard failure of the dispatch (D18, log 18). A
fetch at 256 keeps PC, as `FaultLeavesOnlyTheFetchWrites` says. END, ERR and a BRK answered `end` signal End
(recorded in the state: log 26). -/
def Obligations.PcAdvancesByOneOrJumps : Prop :=
  (∀ (s t : State) (i : Instr), decode s.nextCell = .instr i → step s = .next t →
    t.pc.toNat =
      match i with
      | .jmp a => a.toNat
      | .jpe a => if s.sr.z then a.toNat else s.pc.toNat + 1
      | .jpn a => if s.sr.z then s.pc.toNat + 1 else a.toNat
      | _ => s.pc.toNat + 1) ∧
  (∀ s l : State, step s = .fault (.unrecognizedOpcode l) ∨ step s = .fault (.unrecognizedRegister l) →
    l.pc.toNat = s.pc.toNat + 1) ∧
  (∀ s t : State, step s = .next t →
    (∃ n, decode s.nextCell = .instr (.endRun n)) ∨ (∃ n, decode s.nextCell = .instr (.err n)) ∨
    ((∃ n, decode s.nextCell = .instr (.brk n)) ∧ Config.breakAnswer s.draws = .endRun) →
    t.ended.isSome)

/-- R27, R28, R29: after a step MAR, MDR and CIR hold the cell it fetched; no instruction writes them
(MAR: decision D7, log 6). -/
def Obligations.FetchRegistersHoldTheFetchedCell : Prop :=
  ∀ s t : State, step s = .next t →
    t.mar = s.nextCell ∧ t.mdr = operandField s.nextCell ∧ t.cir = opcodeField s.nextCell

/-- R175: the End signal of a step, by the instruction it ran: Success from END, Error(code) from ERR,
Break from BRK when the hook answers `end`, none in every other case. Recording it in the state is the
model's (log 26). -/
def Obligations.EndSignalComesFromEndErrAndBrkOnly : Prop :=
  ∀ (s t : State) (i : Instr), decode s.nextCell = .instr i → step s = .next t →
    t.ended =
      match i with
      | .endRun _ => some .success
      | .err code => some (.error code)
      | .brk _ => if Config.breakAnswer s.draws = .endRun then some .breakpoint else none
      | _ => none

/-- R38: a step appends at most one event to the trace, by the instruction it ran; the dump of a BRK shows
PC incremented and MAR, MDR, CIR holding the BRK word (R162). What an Output event carries is decision D25
(log 21), the code an Input event carries is that of the host's answer (D16, log 16); keeping the trace in
the state and the dump in the event is the model's (logs 27 and 35). -/
def Obligations.StepAppendsTheEventsOfItsInstruction : Prop :=
  ∀ (s t : State) (i : Instr), decode s.nextCell = .instr i → step s = .next t →
    match i with
    | .outp _ => t.trace = s.trace ++ [.output s.acc]
    | .inp _ => t.trace = s.trace ++ [.input (inputCode Config.spec (Config.inputAnswer s.draws))]
    | .err code => ∃ kind, t.trace = s.trace ++ [.error kind code]
    | .brk _ => ∃ dump, t.trace = s.trace ++ [.breakpoint dump] ∧
        dump.regs.pc.toNat = s.pc.toNat + 1 ∧ dump.regs.mar = s.nextCell ∧
        dump.regs.mdr = operandField s.nextCell ∧ dump.regs.cir = opcodeField s.nextCell ∧
        dump.regs.acc = s.acc ∧ dump.regs.ix = s.ix ∧ dump.regs.sr = s.sr ∧ dump.mem = s.mem
    | _ => t.trace = s.trace

/-! ### Rules of the whole machine -/

/-- R54: the store writes `(M[a] & 0xFF00) | v` in its cell and no other, and no instruction can change
the opcode half of any cell. -/
def Obligations.NoStepChangesAnOpcodeHalf : Prop :=
  (∀ (m : Memory) (a v : Byte),
    (m.writeOperand a v).cellAt a = (m.cellAt a &&& 0xFF00#16) ||| v.setWidth 16 ∧
    ∀ b, b ≠ a → (m.writeOperand a v).cellAt b = m.cellAt b) ∧
  ∀ s t : State, step s = .next t → ∀ a : Byte, t.mem.opcodeAt a = s.mem.opcodeAt a

/-- R115, R36: STO is the only instruction that writes memory, and it writes the cell its operand names
and no other. -/
def Obligations.OnlyStoWritesMemory : Prop :=
  ∀ (s t : State) (i : Instr), exec i s = .next t →
    ∀ b : Byte, (∀ a : Byte, i = .sto a → b ≠ a) → t.mem.cellAt b = s.mem.cellAt b

/-- R31 (its consequences): Z goes from clear to set in a step only by a compare, and then ACC equals the
operand half the compare reached. The value compared is decision D4 and, for CMI, D12 (logs 3, 11); the
kept Z on an out-of-range write is D6 (log 5). -/
def Obligations.OnlyACompareSetsZero : Prop :=
  ∀ s t : State, step s = .next t → s.sr.z = false → t.sr.z = true →
    (∃ a, decode s.nextCell = .instr (.cmpa a) ∧ s.acc = s.mem.operandAt a) ∨
    (∃ n, decode s.nextCell = .instr (.cmpn n) ∧ s.acc = n) ∨
    (∃ a, decode s.nextCell = .instr (.cmi a) ∧ s.acc = s.mem.operandAt (s.mem.operandAt a))

/-- R31 (its consequences): V, once set, stays set through every step (decision D6, log 5). -/
def Obligations.OverflowFlagIsSticky : Prop :=
  ∀ s t : State, step s = .next t → s.sr.v = true → t.sr.v = true

/-- R31: C or N change only in a step whose exact result is out of range: above 255 for ADDA, ADDN or LSL,
which set C and clear N, below 0 for SUBA or SUBN, which clear C and set N. V is set and Z kept (decision
D6, log 5). The value at an address is D4 (log 3), that INC and DEC change neither at a wrap D9 (log 8), the
shift by every count D11 (log 10), that IN never overflows D16 (log 16). -/
def Obligations.CarryAndNegativeChangeOnlyOutOfRange : Prop :=
  ∀ s t : State, step s = .next t → t.sr.c ≠ s.sr.c ∨ t.sr.n ≠ s.sr.n →
    t.sr.v = true ∧ t.sr.z = s.sr.z ∧
    ((t.sr.c = true ∧ t.sr.n = false ∧
        ((∃ a, decode s.nextCell = .instr (.adda a) ∧ 255 < s.acc.toNat + s.direct a) ∨
         (∃ n, decode s.nextCell = .instr (.addn n) ∧ 255 < s.acc.toNat + n.toNat) ∨
         (∃ n, decode s.nextCell = .instr (.lsl n) ∧ 255 < s.acc.toNat * 2 ^ n.toNat))) ∨
     (t.sr.c = false ∧ t.sr.n = true ∧
        ((∃ a, decode s.nextCell = .instr (.suba a) ∧ s.acc.toNat < s.direct a) ∨
         (∃ n, decode s.nextCell = .instr (.subn n) ∧ s.acc.toNat < n.toNat))))

/-- R31, R27: no instruction reads C, V, N or MAR. Two states that differ in these alone take steps with
the same outcome, and the next states differ in C, V and N alone. A BRK is left out, because its dump
shows the flags to the host (R162). -/
def Obligations.NothingReadsCarryOverflowNegativeOrMar : Prop :=
  ∀ s s' t : State, agreeOnWhatIsRead s s' → (∀ n, decode s.nextCell ≠ .instr (.brk n)) →
    step s = .next t → ∃ t', step s' = .next t' ∧ agreeOnWhatIsRead t t' ∧ t'.mar = t.mar

/-- R62: a store to the cell of the instruction being executed: MAR and MDR keep the old cell (MAR:
decision D7, log 6), the cell holds ACC behind its old opcode, and PC is one more (R25), which at address
255 is 256 (D8, log 7). -/
def Obligations.StoToItsOwnCellKeepsTheFetchedWord : Prop :=
  ∀ s : State, s.pc.toNat < 256 → decode s.nextCell = .instr (.sto (s.pc.setWidth 8)) →
    ∃ t, step s = .next t ∧ t.mar = s.nextCell ∧ t.mdr = s.pc.setWidth 8 ∧ t.pc.toNat = s.pc.toNat + 1 ∧
      t.mem.cellAt (s.pc.setWidth 8) = joinFields (opcodeField s.nextCell) s.acc

/-- R62: a store is seen by the next fetch: when STO stores to the cell after its own, the next step
dispatches on that cell's old opcode with ACC as its operand. -/
def Obligations.StoreIsSeenByTheNextFetch : Prop :=
  ∀ (s : State) (a : Byte) (p : Byte), s.pc.toNat < 255 → a.toNat = s.pc.toNat + 1 →
    decode s.nextCell = .instr (.sto a) → s.mem.opcodeAt a = p →
    ∃ t, step s = .next t ∧ t.nextCell = joinFields p s.acc ∧ t.pc.toNat = a.toNat

/-! ### Results: load, store, move (40_load_store_move.md) -/

/-- R110, R111: LDM writes ACC and clears Z, keeping C, V, N (decision D6, log 5); LDR writes IX and no
flag (D10, log 9); nothing else changes. -/
def Obligations.LoadImmediateResults : Prop :=
  ∀ (n : Byte) (s : State),
    exec (.ldm n) s = .next { s with acc := n, sr := { s.sr with z := false } } ∧
    exec (.ldr n) s = .next { s with ix := n }

/-- R112, R113, R114: LDD, LDI and LDX load the operand half of the cell they address (decision D4, log
3) into ACC and clear Z, keeping C, V, N (D6, log 5); the indexed address wraps modulo 256; nothing else
changes. -/
def Obligations.LoadFromMemoryResults : Prop :=
  ∀ (a : Byte) (s : State),
    exec (.ldd a) s =
      .next { s with acc := s.mem.operandAt a, sr := { s.sr with z := false } } ∧
    exec (.ldi a) s =
      .next { s with acc := s.mem.operandAt (s.mem.operandAt a), sr := { s.sr with z := false } } ∧
    exec (.ldx a) s =
      .next { s with acc := s.mem.operandAt (BitVec.ofNat 8 ((a.toNat + s.ix.toNat) % 256)),
                     sr := { s.sr with z := false } }

/-- R115: STO gives its cell `(M[a] & 0xFF00) | ACC`, no other cell and no register changes. -/
def Obligations.StoreResult : Prop :=
  ∀ (a : Byte) (s : State), ∃ t, exec (.sto a) s = .next t ∧
    t.mem.cellAt a = (s.mem.cellAt a &&& 0xFF00#16) ||| s.acc.setWidth 16 ∧
    (∀ b, b ≠ a → t.mem.cellAt b = s.mem.cellAt b) ∧
    t = { s with mem := t.mem }

/-- R116: MOV IX copies ACC into IX without a flag (decision D10, log 9), MOV ACC leaves ACC and clears Z,
keeping C, V, N (D6, log 5), and every other register code faults before anything is written (D2 and D3,
log 2). -/
def Obligations.MoveResults : Prop :=
  ∀ s : State,
    exec (.mov 0) s = .next { s with sr := { s.sr with z := false } } ∧
    exec (.mov 1) s = .next { s with ix := s.acc } ∧
    ∀ r : Byte, 2 ≤ r.toNat → exec (.mov r) s = .fault (.unrecognizedRegister s)

/-! ### Results: arithmetic (41_arithmetic.md) -/

/-- R120 to R123, R126: the exact sum or difference goes to ACC modulo 256 with the flags of R126's table
(the flags it keeps: decision D6, log 5), and nothing else changes. `State.direct` is `Val`, decision D4
(log 3); its value is `DataReadYieldsTheOperandHalf`. -/
def Obligations.AddAndSubtractResults : Prop :=
  ∀ (b : Byte) (s : State),
    (∃ t, exec (.adda b) s = .next t ∧ AccWritten (s.acc.toNat + s.direct b : Int) s t) ∧
    (∃ t, exec (.addn b) s = .next t ∧ AccWritten (s.acc.toNat + b.toNat : Int) s t) ∧
    (∃ t, exec (.suba b) s = .next t ∧ AccWritten (s.acc.toNat - s.direct b : Int) s t) ∧
    (∃ t, exec (.subn b) s = .next t ∧ AccWritten (s.acc.toNat - b.toNat : Int) s t)

/-- R124, R125: INC and DEC wrap within [0,255]; on ACC they clear Z and keep N, V, C also at the wrap
(decision D9, log 8); on IX they write no flag (D10, log 9); every other register code faults (D2, log 2). -/
def Obligations.IncrementAndDecrementResults : Prop :=
  ∀ s : State,
    exec (.inc 0) s =
      .next { s with acc := if s.acc = 255 then 0 else s.acc + 1, sr := { s.sr with z := false } } ∧
    exec (.inc 1) s = .next { s with ix := if s.ix = 255 then 0 else s.ix + 1 } ∧
    exec (.dec 0) s =
      .next { s with acc := if s.acc = 0 then 255 else s.acc - 1, sr := { s.sr with z := false } } ∧
    exec (.dec 1) s = .next { s with ix := if s.ix = 0 then 255 else s.ix - 1 } ∧
    ∀ r : Byte, 2 ≤ r.toNat →
      exec (.inc r) s = .fault (.unrecognizedRegister s) ∧
      exec (.dec r) s = .fault (.unrecognizedRegister s)

/-! ### Results: compare and jump (42_compare_jump.md) -/

/-- R131: CMPN sets Z to the equality of ACC and the immediate and changes nothing else. -/
def Obligations.CompareImmediateResult : Prop :=
  ∀ (n : Byte) (s : State),
    (s.acc = n → exec (.cmpn n) s = .next { s with sr := { s.sr with z := true } }) ∧
    (s.acc ≠ n → exec (.cmpn n) s = .next { s with sr := { s.sr with z := false } })

/-- R130, R132: CMPA and CMI set Z to the equality of ACC and the operand half they reach (decisions D4
and D12, logs 3 and 11) and change nothing else. -/
def Obligations.CompareMemoryResults : Prop :=
  ∀ (a : Byte) (s : State),
    exec (.cmpa a) s = .next { s with sr := { s.sr with z := s.acc == s.mem.operandAt a } } ∧
    exec (.cmi a) s =
      .next { s with sr := { s.sr with z := s.acc == s.mem.operandAt (s.mem.operandAt a) } }

/-- R133: JMP makes PC the operand byte and changes nothing else. -/
def Obligations.JumpResult : Prop :=
  ∀ (a : Byte) (s : State), ∃ t, exec (.jmp a) s = .next t ∧ t.pc.toNat = a.toNat ∧
    t = { s with pc := t.pc }

/-- R134, R135 (their pseudocode): JPE jumps when Z is set, JPN when it is clear; a jump not taken leaves
PC as the fetch left it; nothing else changes. -/
def Obligations.ConditionalJumpResults : Prop :=
  ∀ (a : Byte) (s : State),
    (s.sr.z = true →
      exec (.jpn a) s = .next s ∧
      ∃ t, exec (.jpe a) s = .next t ∧ t.pc.toNat = a.toNat ∧ t = { s with pc := t.pc }) ∧
    (s.sr.z = false →
      exec (.jpe a) s = .next s ∧
      ∃ t, exec (.jpn a) s = .next t ∧ t.pc.toNat = a.toNat ∧ t = { s with pc := t.pc })

/-! ### Results: input and output (43_io.md) -/

/-- R140: IN gives the host's answer to the accumulator write, for whatever the answer is; no input is
the code 0, a code of the channel clears Z, and the shared operation behind IN overflows on a wider one.
The range of the answer is decision D16 (log 16), the ignored
operand D15 (log 15), the kept flags D6 (log 5); the trace and the counter of draws are the model's
(logs 27 and 28). -/
def Obligations.InputResult : Prop :=
  (∀ (ignored : Byte) (s : State), exec (.inp ignored) s =
    .next { s with
      acc := BitVec.ofNat 8 (inputCode Config.spec (Config.inputAnswer s.draws))
      sr := { s.sr with z := false }
      trace := s.trace ++ [.input (inputCode Config.spec (Config.inputAnswer s.draws))]
      draws := s.draws + 1 }) ∧
  inputCode Config.spec none = 0 ∧
  (∀ code : Nat, code ≤ 255 → inputCode Config.spec (some code) = code) ∧
  ∀ (code : Nat) (s : State),
    AccWritten code { s with trace := s.trace ++ [.input code], draws := s.draws + 1 } (s.input code)

/-- R143: OUT hands ACC to the output channel, for whichever ACC, and changes nothing else. The ignored
operand is decision D15 (log 15), the code as the event's content D25 (log 21); the trace is the model's
record (log 27). -/
def Obligations.OutputResult : Prop :=
  ∀ (ignored : Byte) (s : State),
    exec (.outp ignored) s = .next { s with trace := s.trace ++ [.output s.acc] }

/-! ### Results: bitwise and shift (44_bitwise_shift.md) -/

/-- R151, R153, R155: the immediate AND, OR and XOR write the bitwise result, clear Z, and change nothing
else (C, V, N kept: decision D6, log 5). -/
def Obligations.BitwiseImmediateResults : Prop :=
  ∀ (n : Byte) (s : State),
    exec (.andn n) s = .next { s with acc := s.acc &&& n, sr := { s.sr with z := false } } ∧
    exec (.orn n) s = .next { s with acc := s.acc ||| n, sr := { s.sr with z := false } } ∧
    exec (.xorn n) s = .next { s with acc := s.acc ^^^ n, sr := { s.sr with z := false } }

/-- R150, R152, R154: the same with the operand half of a cell (decision D4, log 3; C, V, N kept: D6, log
5). -/
def Obligations.BitwiseMemoryResults : Prop :=
  ∀ (a : Byte) (s : State),
    exec (.anda a) s =
      .next { s with acc := s.acc &&& s.mem.operandAt a, sr := { s.sr with z := false } } ∧
    exec (.ora a) s =
      .next { s with acc := s.acc ||| s.mem.operandAt a, sr := { s.sr with z := false } } ∧
    exec (.xora a) s =
      .next { s with acc := s.acc ^^^ s.mem.operandAt a, sr := { s.sr with z := false } }

/-- R156: LSL writes the low eight bits of `ACC * 2^n`, with the flags of an accumulator write of the
exact product (the flags it keeps: decision D6, log 5); every non-zero ACC shifted by 8 or more gives 0 with V
and C set (D11, log 10). -/
def Obligations.ShiftLeftResult : Prop :=
  ∀ (n : Byte) (s : State), ∃ t, exec (.lsl n) s = .next t ∧
    AccWritten ((s.acc.toNat * 2 ^ n.toNat : Nat) : Int) s t ∧ t.acc = s.acc <<< n.toNat ∧
    (8 ≤ n.toNat → s.acc ≠ 0 → t.acc = 0 ∧ t.sr.v = true ∧ t.sr.c = true ∧ t.sr.n = false)

/-- R157: LSR writes `floor(ACC / 2^n)`, zeros entering at the top, clears Z, and changes nothing else
(counts of 8 or more: decision D11, log 10; C, V, N kept: D6, log 5). -/
def Obligations.ShiftRightResult : Prop :=
  ∀ (n : Byte) (s : State),
    exec (.lsr n) s = .next { s with acc := s.acc >>> n.toNat, sr := { s.sr with z := false } } ∧
    (8 ≤ n.toNat → exec (.lsr n) s = .next { s with acc := 0, sr := { s.sr with z := false } })

/-! ### Results: END, BRK, ERR (45_end_brk_err.md) -/

/-- R160, R161: END signals End(Success); BRK hands over the dump and signals End(Break) exactly when the
hook answers `end`; neither changes a register or a cell. The ignored operand of BRK is decision D15 (log
15), the two answers D17 (log 17); the record of signal, event and draw is the model's (logs 26 to 28). -/
def Obligations.EndAndBreakResults : Prop :=
  ∀ (ignored : Byte) (s : State),
    exec (.endRun ignored) s = .next { s with ended := some .success } ∧
    ∃ t, exec (.brk ignored) s = .next t ∧
      t = { s with trace := t.trace, draws := t.draws, ended := t.ended } ∧
      t.trace = s.trace ++ [.breakpoint { regs := s.registers, mem := s.mem }] ∧
      (Config.breakAnswer s.draws = .endRun → t.ended = some .breakpoint) ∧
      (Config.breakAnswer s.draws = .goOn → t.ended = s.ended)

/-- R164, R165: ERR reports its kind and code and signals End(Error(code)); nothing else changes. The
kinds are decision D14 (log 14); the record of event and signal is the model's (logs 26 and 27). -/
def Obligations.ErrorReportResult : Prop :=
  ∀ (code : Byte) (s : State), ∃ kind,
    exec (.err code) s =
      .next { s with trace := s.trace ++ [.error kind code], ended := some (.error code) } ∧
    (code.toNat = 0 → kind = .malformedInstruction) ∧ (code.toNat = 1 → kind = .unrecognizedOpcode) ∧
    (code.toNat = 2 → kind = .unrecognizedRegister) ∧ (3 ≤ code.toNat → kind = .unknown)

/-! ### Frames (00_scope.md R11: a register or flag a rule does not name is unchanged) -/

/-- The loads into ACC, the arithmetic, logic and shift instructions on ACC: IX, PC, MAR, MDR, CIR, every
cell and what the host has been told are unchanged; those always in range change no flag but Z (decision
D6, log 5). That LDD, LDI, LDX, ANDA, ORA and XORA are always in range is D4 (log 3). -/
def Obligations.AccumulatorInstructionsFrame : Prop :=
  ∀ (i : Instr) (s t : State), i.writesAccOnly = true → exec i s = .next t →
    t.ix = s.ix ∧ t.pc = s.pc ∧ t.mar = s.mar ∧ t.mdr = s.mdr ∧ t.cir = s.cir ∧
    t.ended = s.ended ∧ t.trace = s.trace ∧ t.draws = s.draws ∧ sameCells s t ∧
    (i.alwaysInRange = true → t.sr.z = false ∧ t.sr.c = s.sr.c ∧ t.sr.v = s.sr.v ∧ t.sr.n = s.sr.n)

/-- The compares and the jumps: a compare changes Z alone, a jump changes PC alone. -/
def Obligations.CompareAndJumpFrame : Prop :=
  ∀ (i : Instr) (s t : State), exec i s = .next t →
    (i.isCompare = true → t = { s with sr := { s.sr with z := t.sr.z } } ∧ sameCells s t) ∧
    (i.isJump = true → t = { s with pc := t.pc } ∧ sameCells s t)

/-- LDR, and MOV, INC and DEC on a register: with IX the one register written is IX and SR is kept
(R34, decision D10, log 9); with ACC it is ACC, and of SR only Z (D6, log 5, and at a wrap D9, log 8). The
register codes are decision D2 (log 2). -/
def Obligations.RegisterInstructionsFrame : Prop :=
  (∀ (n : Byte) (s t : State), exec (.ldr n) s = .next t → t = { s with ix := t.ix } ∧ sameCells s t) ∧
  ∀ (i : Instr) (s t : State), i.takesRegister = true → exec i s = .next t → sameCells s t ∧
    ((i.operand = 0 ∧ t = { s with acc := t.acc, sr := { s.sr with z := false } }) ∨
     (i.operand = 1 ∧ t = { s with ix := t.ix }))

/-- STO: the one address stored to is the operand; every other cell, the opcode half of that cell, every
register and flag and what the host has been told are unchanged. -/
def Obligations.StoreFrame : Prop :=
  ∀ (a : Byte) (s t : State), exec (.sto a) s = .next t →
    t = { s with mem := t.mem } ∧ t.mem.opcodeAt a = s.mem.opcodeAt a ∧
    ∀ b, b ≠ a → t.mem.opcodeAt b = s.mem.opcodeAt b ∧ t.mem.operandAt b = s.mem.operandAt b

/-- IN, OUT, END, BRK and ERR: IX, PC, MAR, MDR, CIR and every cell are unchanged, and but for IN so are
ACC and SR; IN changes of SR only Z (decisions D6 and D16, logs 5 and 16). -/
def Obligations.HostInstructionsFrame : Prop :=
  ∀ (i : Instr) (s t : State), i.reportsToHost = true → exec i s = .next t →
    t.ix = s.ix ∧ t.pc = s.pc ∧ t.mar = s.mar ∧ t.mdr = s.mdr ∧ t.cir = s.cir ∧ sameCells s t ∧
    t.sr.c = s.sr.c ∧ t.sr.v = s.sr.v ∧ t.sr.n = s.sr.n ∧
    ((∀ n, i ≠ .inp n) → t.acc = s.acc ∧ t.sr = s.sr)

/-! ### Parameters (00_scope.md R7) -/

/-- R53: `Val` at the default is the operand half (decision D4, log 3), and the two values of `MEMVAL`
differ exactly on the cells whose opcode half is not zero. -/
def Obligations.DataReadYieldsTheOperandHalf : Prop :=
  ∀ (s : State) (a : Byte),
    s.direct a = (s.mem.cellAt a).toNat % 256 ∧
    (s.mem.val .operandByte a ≠ s.mem.val .wholeWord a ↔ s.mem.opcodeAt a ≠ 0)

/-- R124, R125, decision D9 (log 8): ACC after INC or DEC is the same under both values of
`INCDEC_WRAP_FLAGS`, and SR is the same but at a wrap. -/
def Obligations.IncDecReadingsDifferOnlyInFlagsAtAWrap : Prop :=
  ∀ (x : Byte) (s : State),
    (s.accWrite (incremented .overflowRule x)).acc = (s.accWrite (incremented .inRange x)).acc ∧
    (s.accWrite (decremented .overflowRule x)).acc = (s.accWrite (decremented .inRange x)).acc ∧
    (x ≠ 255 →
      (s.accWrite (incremented .overflowRule x)).sr = (s.accWrite (incremented .inRange x)).sr) ∧
    (x ≠ 0 →
      (s.accWrite (decremented .overflowRule x)).sr = (s.accWrite (decremented .inRange x)).sr)

/-- R30, R32: SR as a number is `8*N + 4*V + 2*C + Z`, and the four binary digits `NVCZ` give the flags
back (decision D5, log 4). -/
def Obligations.StatusRegisterAsNumberAndText : Prop :=
  ∀ f : Flags,
    (f.toBits Config.spec.srLayout).toNat
      = 8 * f.n.toNat + 4 * f.v.toNat + 2 * f.c.toNat + f.z.toNat ∧
    Flags.ofBits Config.spec.srLayout (f.toBits Config.spec.srLayout) = f ∧
    Flags.ofText Config.spec.srLayout
      [if f.n then '1' else '0', if f.v then '1' else '0', if f.c then '1' else '0',
       if f.z then '1' else '0'] = some f

/-! ### The host's entry points (10_state.md R39 to R41, 20_memory.md R64, 70_reset_and_hazards.md) -/

/-- R64: `loadMemory` writes every cell, the ones past a short image with 0x0000 (decision D23, log 20),
changes no register, and refuses an image that is too long or holds a value that is no cell. -/
def Obligations.LoadMemoryWritesEveryCell : Prop :=
  ∀ (image : List Nat) (s : State),
    (image.length ≤ 256 ∧ (∀ w ∈ image, w ≤ 65535) →
      ∃ t, loadMemory image s = some t ∧ t = { s with mem := t.mem } ∧
        ∀ a : Byte, (t.mem.cellAt a).toNat = image.getD a.toNat 0) ∧
    (256 < image.length ∨ (∃ w ∈ image, 65535 < w) → loadMemory image s = none)

/-- R40, R32: construction stores its arguments plainly, without the accumulator write's effect on SR, the
image with its uncovered cells at 0x0000, and leaves the rest at reset; it fails on a register argument
above 255, an SR text that is not four binary digits, and an image that is too long or holds no cell. The
values of arguments left out and the zero fill are decision D13 (logs 12 and 13), the order of the SR
digits D5 (log 4). -/
def Obligations.ConstructionStoresItsArguments : Prop :=
  ∀ args : ConstructArgs,
    (args.inRange → ∃ s, construct args = some s ∧
      s.pc.toNat = args.pc.getD 0 ∧ s.acc.toNat = args.acc.getD 0 ∧ s.ix.toNat = args.ix.getD 0 ∧
      s.sr.digits = args.sr.getD ['0', '0', '0', '0'] ∧
      (∀ a : Byte, (s.mem.cellAt a).toNat = (args.memory.getD []).getD a.toNat 0) ∧
      s = { State.reset with pc := s.pc, acc := s.acc, ix := s.ix, sr := s.sr, mem := s.mem }) ∧
    (¬ args.inRange → construct args = none)

/-- R41: `clearMemory` makes every cell 0x0000 and changes no register (decision D13, log 13); the reads
of R39 give the cells one by one and as the default slice. -/
def Obligations.ClearedMemoryReadsZero : Prop :=
  ∀ s : State,
    clearMemory s = { s with mem := (clearMemory s).mem } ∧
    (∀ a, a < 256 → getMemoryAt a (clearMemory s) = some 0x0000) ∧
    getMemorySlice none none (clearMemory s) = some (List.replicate 256 0x0000) ∧
    ∀ a, 256 ≤ a → getMemoryAt a s = none

/-- R196, R197: `runCode` is the single steps from the start address until the first that signals End: it
returns a reason and a final state exactly when within the budget that many calls of the step reach that
state, the last signalled that End and none before it did; it leaves by a fault exactly when the single
steps do; and it runs out of the caller's budget (log 33) exactly when no step of the budget ended the run.
The End signal in the state is the model's record (log 26). -/
def Obligations.RunCodeIsSingleStepsUntilEnd : Prop :=
  ∀ (budget start : Nat) (s : State), start < 256 →
    (∀ (reason : EndReason) (t : State), runCode budget start s = .ended reason t ↔
      ∃ k, k < budget ∧ goesOnFor k { s with pc := BitVec.ofNat 9 start } ∧
        core.run (k + 1) { s with pc := BitVec.ofNat 9 start } = .next t ∧ t.ended = some reason) ∧
    (∀ r : Fault, runCode budget start s = .faulted r ↔
      ∃ k, k < budget ∧ goesOnFor k { s with pc := BitVec.ofNat 9 start } ∧
        core.run (k + 1) { s with pc := BitVec.ofNat 9 start } = .fault r) ∧
    ∀ t : State, runCode budget start s = .outOfBudget t ↔
      goesOnFor budget { s with pc := BitVec.ofNat 9 start } ∧
        core.run budget { s with pc := BitVec.ofNat 9 start } = .next t

/-- R196, R205: a run that ended or faulted within a step budget comes out the same under every larger
one: the budget is the caller's and no part of the machine. -/
def Obligations.LargerBudgetGivesTheSameRun : Prop :=
  ∀ (budget more start : Nat) (s : State) (out : RunResult), budget ≤ more →
    runCode budget start s = out → (∀ u, out ≠ .outOfBudget u) → runCode more start s = out

/-! ### The assembler (30_encoding.md R90 to R105) -/

/-- R90, R101: the image is empty exactly when some diagnostic was emitted, and has 256 cells otherwise
(the padding is decision D23, log 20). -/
def Obligations.AnyDiagnosticEmptiesTheImage : Prop :=
  ∀ source : List Char,
    ((Assembler.translate source).image = [] ↔ (Assembler.translate source).diagnostics ≠ []) ∧
    ((Assembler.translate source).diagnostics = [] → (Assembler.translate source).image.length = 256)

/-- R104: the printed text of every well-formed instruction assembles to that instruction without a
complaint (an ignored operand byte, which the text does not show, being 0). The printed form is the
spec's convention; the mnemonics are decisions D19 and D20 (log 23). -/
def Obligations.PrintedInstructionAssemblesBack : Prop :=
  ∀ i : Instr, i.wellFormed = true → (Assembler.shapeOf i.opcode = .none → i.operand = 0) →
    ∃ tokens, Assembler.disassemble (encode i) = some tokens ∧
      Assembler.assembleLine [] tokens = (i, [])
end

