-- ==== Sys2Proof/Laws/Assembler.lean ====
section
/-!
SUPPORT. The two ways a translation can come out.
-/

namespace Sys2Proof.Machine.Assembler

/-- Too many lines, or both passes over at most 256 of them (R91, R101). -/
theorem translateUnder_cases (c : Config) (source : Text) :
    (256 < (survivingLines source).length ∧
      translateUnder c source = ⟨[], [], [⟨0, .programTooLong⟩]⟩) ∨
    ((survivingLines source).length ≤ 256 ∧ ∃ labels complaints,
      translateUnder c source =
        ⟨if complaints.isEmpty then imageOf c labels (survivingLines source) else [], labels, complaints⟩) := by
  unfold translateUnder
  by_cases h : (survivingLines source).length > Config.memCells
  · exact .inl ⟨h, by simp [h]⟩
  · exact .inr ⟨Nat.le_of_not_lt h, _, _, by simp only [h, if_false]; rfl⟩

/-- The same at the default parameters. -/
theorem translate_cases (source : Text) :
    (256 < (survivingLines source).length ∧
      translate source = ⟨[], [], [⟨0, .programTooLong⟩]⟩) ∨
    ((survivingLines source).length ≤ 256 ∧ ∃ labels complaints,
      translate source =
        ⟨if complaints.isEmpty then imageOf Config.spec labels (survivingLines source) else [], labels,
          complaints⟩) :=
  translateUnder_cases Config.spec source

/-- A valid image fills all 256 cells (R101). -/
theorem imageOf_length (c : Config) {labels : List Label} {lines : List (List Text)} (h : lines.length ≤ 256) :
    (imageOf c labels lines).length = 256 := by
  simp [imageOf, Config.memCells]; omega

end Sys2Proof.Machine.Assembler
end

