-- ==== Sys2Proof/Laws/State.lean ====
section
/-!
SUPPORT. What each named update of the state does to each field, so that no later proof unfolds a
record update; and the fields of the default configuration and of reset.
-/

namespace Sys2Proof

@[simp] theorem Config.spec_opcodeMap : Config.spec.opcodeMap = Decisions.opcodeMap := rfl
@[simp] theorem Config.spec_regCode : Config.spec.regCode = Decisions.regCode := rfl
@[simp] theorem Config.spec_movTargets : Config.spec.movTargets = [.acc, .ix] := rfl
@[simp] theorem Config.spec_memVal : Config.spec.memVal = .operandByte := rfl
@[simp] theorem Config.spec_marBits : Config.spec.marBits = 16 := rfl
@[simp] theorem Config.spec_inputBits : Config.spec.inputBits = 8 := rfl
@[simp] theorem Config.spec_pcOverrun : Config.spec.pcOverrun = .fault := rfl
@[simp] theorem Config.spec_incDecWrapFlags : Config.spec.incDecWrapFlags = .inRange := rfl
@[simp] theorem Config.spec_shiftLarge : Config.spec.shiftLarge = .mathematical := rfl
@[simp] theorem Config.spec_cmiMode : Config.spec.cmiMode = .indirect := rfl
@[simp] theorem Config.spec_errKind : Config.spec.errKind = Decisions.errKind := rfl
@[simp] theorem Config.spec_srLayout : Config.spec.srLayout = { c := 1, v := 2, n := 3 } := rfl

end Sys2Proof

namespace Sys2Proof.Machine

/-! ### `State.accWrite` -/

@[simp] theorem State.accWrite_acc (value : Int) (s : State) :
    (s.accWrite value).acc = normalise value := rfl
@[simp] theorem State.accWrite_ix (value : Int) (s : State) : (s.accWrite value).ix = s.ix := rfl
@[simp] theorem State.accWrite_pc (value : Int) (s : State) : (s.accWrite value).pc = s.pc := rfl
@[simp] theorem State.accWrite_mar (value : Int) (s : State) : (s.accWrite value).mar = s.mar := rfl
@[simp] theorem State.accWrite_mdr (value : Int) (s : State) : (s.accWrite value).mdr = s.mdr := rfl
@[simp] theorem State.accWrite_cir (value : Int) (s : State) : (s.accWrite value).cir = s.cir := rfl
@[simp] theorem State.accWrite_sr (value : Int) (s : State) :
    (s.accWrite value).sr = s.sr.afterAccWrite value := rfl
@[simp] theorem State.accWrite_mem (value : Int) (s : State) : (s.accWrite value).mem = s.mem := rfl
@[simp] theorem State.accWrite_ended (value : Int) (s : State) :
    (s.accWrite value).ended = s.ended := rfl
@[simp] theorem State.accWrite_trace (value : Int) (s : State) :
    (s.accWrite value).trace = s.trace := rfl
@[simp] theorem State.accWrite_draws (value : Int) (s : State) :
    (s.accWrite value).draws = s.draws := rfl

/-! ### `State.ixWrite` -/

@[simp] theorem State.ixWrite_acc (value : Int) (s : State) : (s.ixWrite value).acc = s.acc := rfl
@[simp] theorem State.ixWrite_ix (value : Int) (s : State) :
    (s.ixWrite value).ix = normalise value := rfl
@[simp] theorem State.ixWrite_pc (value : Int) (s : State) : (s.ixWrite value).pc = s.pc := rfl
@[simp] theorem State.ixWrite_mar (value : Int) (s : State) : (s.ixWrite value).mar = s.mar := rfl
@[simp] theorem State.ixWrite_mdr (value : Int) (s : State) : (s.ixWrite value).mdr = s.mdr := rfl
@[simp] theorem State.ixWrite_cir (value : Int) (s : State) : (s.ixWrite value).cir = s.cir := rfl
@[simp] theorem State.ixWrite_sr (value : Int) (s : State) : (s.ixWrite value).sr = s.sr := rfl
@[simp] theorem State.ixWrite_mem (value : Int) (s : State) : (s.ixWrite value).mem = s.mem := rfl
@[simp] theorem State.ixWrite_ended (value : Int) (s : State) :
    (s.ixWrite value).ended = s.ended := rfl
@[simp] theorem State.ixWrite_trace (value : Int) (s : State) :
    (s.ixWrite value).trace = s.trace := rfl
@[simp] theorem State.ixWrite_draws (value : Int) (s : State) :
    (s.ixWrite value).draws = s.draws := rfl

/-! ### `State.compare` -/

@[simp] theorem State.compare_acc (value : Nat) (s : State) : (s.compare value).acc = s.acc := rfl
@[simp] theorem State.compare_ix (value : Nat) (s : State) : (s.compare value).ix = s.ix := rfl
@[simp] theorem State.compare_pc (value : Nat) (s : State) : (s.compare value).pc = s.pc := rfl
@[simp] theorem State.compare_mar (value : Nat) (s : State) : (s.compare value).mar = s.mar := rfl
@[simp] theorem State.compare_mdr (value : Nat) (s : State) : (s.compare value).mdr = s.mdr := rfl
@[simp] theorem State.compare_cir (value : Nat) (s : State) : (s.compare value).cir = s.cir := rfl
@[simp] theorem State.compare_sr (value : Nat) (s : State) :
    (s.compare value).sr = s.sr.afterCompare (decide (s.acc.toNat = value)) := rfl
@[simp] theorem State.compare_mem (value : Nat) (s : State) : (s.compare value).mem = s.mem := rfl
@[simp] theorem State.compare_ended (value : Nat) (s : State) :
    (s.compare value).ended = s.ended := rfl
@[simp] theorem State.compare_trace (value : Nat) (s : State) :
    (s.compare value).trace = s.trace := rfl
@[simp] theorem State.compare_draws (value : Nat) (s : State) :
    (s.compare value).draws = s.draws := rfl

/-! ### `State.jumpTo` -/

@[simp] theorem State.jumpTo_acc (target : Byte) (s : State) : (s.jumpTo target).acc = s.acc := rfl
@[simp] theorem State.jumpTo_ix (target : Byte) (s : State) : (s.jumpTo target).ix = s.ix := rfl
@[simp] theorem State.jumpTo_pc (target : Byte) (s : State) :
    (s.jumpTo target).pc = target.setWidth 9 := rfl
@[simp] theorem State.jumpTo_mar (target : Byte) (s : State) : (s.jumpTo target).mar = s.mar := rfl
@[simp] theorem State.jumpTo_mdr (target : Byte) (s : State) : (s.jumpTo target).mdr = s.mdr := rfl
@[simp] theorem State.jumpTo_cir (target : Byte) (s : State) : (s.jumpTo target).cir = s.cir := rfl
@[simp] theorem State.jumpTo_sr (target : Byte) (s : State) : (s.jumpTo target).sr = s.sr := rfl
@[simp] theorem State.jumpTo_mem (target : Byte) (s : State) : (s.jumpTo target).mem = s.mem := rfl
@[simp] theorem State.jumpTo_ended (target : Byte) (s : State) :
    (s.jumpTo target).ended = s.ended := rfl
@[simp] theorem State.jumpTo_trace (target : Byte) (s : State) :
    (s.jumpTo target).trace = s.trace := rfl
@[simp] theorem State.jumpTo_draws (target : Byte) (s : State) :
    (s.jumpTo target).draws = s.draws := rfl

/-! ### `State.store` -/

@[simp] theorem State.store_acc (a v : Byte) (s : State) : (s.store a v).acc = s.acc := rfl
@[simp] theorem State.store_ix (a v : Byte) (s : State) : (s.store a v).ix = s.ix := rfl
@[simp] theorem State.store_pc (a v : Byte) (s : State) : (s.store a v).pc = s.pc := rfl
@[simp] theorem State.store_mar (a v : Byte) (s : State) : (s.store a v).mar = s.mar := rfl
@[simp] theorem State.store_mdr (a v : Byte) (s : State) : (s.store a v).mdr = s.mdr := rfl
@[simp] theorem State.store_cir (a v : Byte) (s : State) : (s.store a v).cir = s.cir := rfl
@[simp] theorem State.store_sr (a v : Byte) (s : State) : (s.store a v).sr = s.sr := rfl
@[simp] theorem State.store_mem (a v : Byte) (s : State) :
    (s.store a v).mem = s.mem.writeOperand a v := rfl
@[simp] theorem State.store_ended (a v : Byte) (s : State) : (s.store a v).ended = s.ended := rfl
@[simp] theorem State.store_trace (a v : Byte) (s : State) : (s.store a v).trace = s.trace := rfl
@[simp] theorem State.store_draws (a v : Byte) (s : State) : (s.store a v).draws = s.draws := rfl

/-! ### `State.emit` -/

@[simp] theorem State.emit_acc (e : Event) (s : State) : (s.emit e).acc = s.acc := rfl
@[simp] theorem State.emit_ix (e : Event) (s : State) : (s.emit e).ix = s.ix := rfl
@[simp] theorem State.emit_pc (e : Event) (s : State) : (s.emit e).pc = s.pc := rfl
@[simp] theorem State.emit_mar (e : Event) (s : State) : (s.emit e).mar = s.mar := rfl
@[simp] theorem State.emit_mdr (e : Event) (s : State) : (s.emit e).mdr = s.mdr := rfl
@[simp] theorem State.emit_cir (e : Event) (s : State) : (s.emit e).cir = s.cir := rfl
@[simp] theorem State.emit_sr (e : Event) (s : State) : (s.emit e).sr = s.sr := rfl
@[simp] theorem State.emit_mem (e : Event) (s : State) : (s.emit e).mem = s.mem := rfl
@[simp] theorem State.emit_ended (e : Event) (s : State) : (s.emit e).ended = s.ended := rfl
@[simp] theorem State.emit_trace (e : Event) (s : State) : (s.emit e).trace = s.trace ++ [e] := rfl
@[simp] theorem State.emit_draws (e : Event) (s : State) : (s.emit e).draws = s.draws := rfl

/-! ### `State.signalEnd` -/

@[simp] theorem State.signalEnd_acc (reason : EndReason) (s : State) :
    (s.signalEnd reason).acc = s.acc := rfl
@[simp] theorem State.signalEnd_ix (reason : EndReason) (s : State) :
    (s.signalEnd reason).ix = s.ix := rfl
@[simp] theorem State.signalEnd_pc (reason : EndReason) (s : State) :
    (s.signalEnd reason).pc = s.pc := rfl
@[simp] theorem State.signalEnd_mar (reason : EndReason) (s : State) :
    (s.signalEnd reason).mar = s.mar := rfl
@[simp] theorem State.signalEnd_mdr (reason : EndReason) (s : State) :
    (s.signalEnd reason).mdr = s.mdr := rfl
@[simp] theorem State.signalEnd_cir (reason : EndReason) (s : State) :
    (s.signalEnd reason).cir = s.cir := rfl
@[simp] theorem State.signalEnd_sr (reason : EndReason) (s : State) :
    (s.signalEnd reason).sr = s.sr := rfl
@[simp] theorem State.signalEnd_mem (reason : EndReason) (s : State) :
    (s.signalEnd reason).mem = s.mem := rfl
@[simp] theorem State.signalEnd_ended (reason : EndReason) (s : State) :
    (s.signalEnd reason).ended = some reason := rfl
@[simp] theorem State.signalEnd_trace (reason : EndReason) (s : State) :
    (s.signalEnd reason).trace = s.trace := rfl
@[simp] theorem State.signalEnd_draws (reason : EndReason) (s : State) :
    (s.signalEnd reason).draws = s.draws := rfl

/-! ### `State.takeInput` -/

@[simp] theorem State.takeInput_acc (code : Nat) (s : State) : (s.takeInput code).acc = s.acc := rfl
@[simp] theorem State.takeInput_ix (code : Nat) (s : State) : (s.takeInput code).ix = s.ix := rfl
@[simp] theorem State.takeInput_pc (code : Nat) (s : State) : (s.takeInput code).pc = s.pc := rfl
@[simp] theorem State.takeInput_mar (code : Nat) (s : State) : (s.takeInput code).mar = s.mar := rfl
@[simp] theorem State.takeInput_mdr (code : Nat) (s : State) : (s.takeInput code).mdr = s.mdr := rfl
@[simp] theorem State.takeInput_cir (code : Nat) (s : State) : (s.takeInput code).cir = s.cir := rfl
@[simp] theorem State.takeInput_sr (code : Nat) (s : State) : (s.takeInput code).sr = s.sr := rfl
@[simp] theorem State.takeInput_mem (code : Nat) (s : State) : (s.takeInput code).mem = s.mem := rfl
@[simp] theorem State.takeInput_ended (code : Nat) (s : State) :
    (s.takeInput code).ended = s.ended := rfl
@[simp] theorem State.takeInput_trace (code : Nat) (s : State) :
    (s.takeInput code).trace = s.trace ++ [.input code] := rfl
@[simp] theorem State.takeInput_draws (code : Nat) (s : State) :
    (s.takeInput code).draws = s.draws + 1 := rfl

/-! ### `State.takeBreak` -/

@[simp] theorem State.takeBreak_acc (answer : BreakAnswer) (s : State) :
    (s.takeBreak answer).acc = s.acc := rfl
@[simp] theorem State.takeBreak_ix (answer : BreakAnswer) (s : State) :
    (s.takeBreak answer).ix = s.ix := rfl
@[simp] theorem State.takeBreak_pc (answer : BreakAnswer) (s : State) :
    (s.takeBreak answer).pc = s.pc := rfl
@[simp] theorem State.takeBreak_mar (answer : BreakAnswer) (s : State) :
    (s.takeBreak answer).mar = s.mar := rfl
@[simp] theorem State.takeBreak_mdr (answer : BreakAnswer) (s : State) :
    (s.takeBreak answer).mdr = s.mdr := rfl
@[simp] theorem State.takeBreak_cir (answer : BreakAnswer) (s : State) :
    (s.takeBreak answer).cir = s.cir := rfl
@[simp] theorem State.takeBreak_sr (answer : BreakAnswer) (s : State) :
    (s.takeBreak answer).sr = s.sr := rfl
@[simp] theorem State.takeBreak_mem (answer : BreakAnswer) (s : State) :
    (s.takeBreak answer).mem = s.mem := rfl
@[simp] theorem State.takeBreak_ended (answer : BreakAnswer) (s : State) :
    (s.takeBreak answer).ended = if answer = .endRun then some .breakpoint else s.ended := rfl
@[simp] theorem State.takeBreak_trace (answer : BreakAnswer) (s : State) :
    (s.takeBreak answer).trace = s.trace ++ [.breakpoint s.snapshot] := rfl
@[simp] theorem State.takeBreak_draws (answer : BreakAnswer) (s : State) :
    (s.takeBreak answer).draws = s.draws + 1 := rfl

/-! ### `State.fetched` -/

@[simp] theorem State.fetched_acc (w : Word) (s : State) : (s.fetched w).acc = s.acc := rfl
@[simp] theorem State.fetched_ix (w : Word) (s : State) : (s.fetched w).ix = s.ix := rfl
@[simp] theorem State.fetched_pc (w : Word) (s : State) :
    (s.fetched w).pc = advancePc Config.spec.pcOverrun s.pc := rfl
@[simp] theorem State.fetched_mar (w : Word) (s : State) :
    (s.fetched w).mar = w := by simp [State.fetched, State.fetchedUnder, Config.spec, Decisions.marBits]
@[simp] theorem State.fetched_mdr (w : Word) (s : State) : (s.fetched w).mdr = operandField w := rfl
@[simp] theorem State.fetched_cir (w : Word) (s : State) : (s.fetched w).cir = opcodeField w := rfl
@[simp] theorem State.fetched_sr (w : Word) (s : State) : (s.fetched w).sr = s.sr := rfl
@[simp] theorem State.fetched_mem (w : Word) (s : State) : (s.fetched w).mem = s.mem := rfl
@[simp] theorem State.fetched_ended (w : Word) (s : State) : (s.fetched w).ended = none := rfl
@[simp] theorem State.fetched_trace (w : Word) (s : State) : (s.fetched w).trace = s.trace := rfl
@[simp] theorem State.fetched_draws (w : Word) (s : State) : (s.fetched w).draws = s.draws := rfl

/-! ### Registers by name -/

@[simp] theorem State.readReg_acc (s : State) : s.readReg .acc = s.acc := rfl
@[simp] theorem State.writeReg_acc (value : Int) (s : State) : s.writeReg .acc value = s.accWrite value := rfl
@[simp] theorem State.readReg_ix (s : State) : s.readReg .ix = s.ix := rfl
@[simp] theorem State.writeReg_ix (value : Int) (s : State) : s.writeReg .ix value = s.ixWrite value := rfl

/-! ### Flags -/

@[simp] theorem Flags.afterCompare_z (e : Bool) (f : Flags) : (f.afterCompare e).z = e := rfl
@[simp] theorem Flags.afterCompare_c (e : Bool) (f : Flags) : (f.afterCompare e).c = f.c := rfl
@[simp] theorem Flags.afterCompare_v (e : Bool) (f : Flags) : (f.afterCompare e).v = f.v := rfl
@[simp] theorem Flags.afterCompare_n (e : Bool) (f : Flags) : (f.afterCompare e).n = f.n := rfl

/-! ### Reset -/

@[simp] theorem State.reset_acc : State.reset.acc = 0 := rfl
@[simp] theorem State.reset_ix : State.reset.ix = 0 := rfl
@[simp] theorem State.reset_pc : State.reset.pc = 0 := rfl
@[simp] theorem State.reset_mar : State.reset.mar = 0 := rfl
@[simp] theorem State.reset_mdr : State.reset.mdr = 0 := rfl
@[simp] theorem State.reset_cir : State.reset.cir = 0 := rfl
@[simp] theorem State.reset_ended : State.reset.ended = none := rfl
@[simp] theorem State.reset_trace : State.reset.trace = [] := rfl
@[simp] theorem State.reset_draws : State.reset.draws = 0 := rfl
@[simp] theorem State.reset_mem : State.reset.mem = { opcodes := [], operands := [] } := rfl
@[simp] theorem State.reset_sr :
    State.reset.sr = { z := false, c := false, v := false, n := false } := rfl

end Sys2Proof.Machine
end

