-- ==== Sys2Proof/Laws/Memory.lean ====
section
/-!
SUPPORT. The laws of memory: what a read gives after each write, and that every memory operation
keeps the canonical form (log 25).
-/

namespace Sys2Proof.Machine

/-! ### One half, as a list of cells -/

@[simp] theorem readCell_nil (a : Nat) : readCell a [] = Decisions.fillByte := rfl

theorem readCell_cons (a k : Nat) (x : Byte) (t : List Host.Cell) :
    readCell a ((k, x) :: t) = if k = a then x else readCell a t := rfl

theorem readCell_insertCell_self {a : Nat} {v : Byte} {l : List Host.Cell}
    (fresh : ∀ c ∈ l, c.1 ≠ a) : readCell a (insertCell a v l) = v := by
  induction l with
  | nil => simp [insertCell, readCell]
  | cons c t ih =>
    obtain ⟨k, x⟩ := c
    have hk : k ≠ a := fresh (k, x) (by simp)
    by_cases h : a < k
    · simp [insertCell, h, readCell]
    · simp [insertCell, h, readCell, hk, ih fun c hc => fresh c (by simp [hc])]

theorem readCell_insertCell_other {a b : Nat} {v : Byte} {l : List Host.Cell} (h : b ≠ a) :
    readCell b (insertCell a v l) = readCell b l := by
  induction l with
  | nil => simp [insertCell, readCell, h.symm]
  | cons c t ih =>
    obtain ⟨k, x⟩ := c
    by_cases hk : a < k
    · simp [insertCell, hk, readCell, h.symm]
    · simp [insertCell, hk, readCell, ih]

theorem readCell_dropCell_self (a : Nat) (l : List Host.Cell) :
    readCell a (dropCell a l) = Decisions.fillByte := by
  induction l with
  | nil => rfl
  | cons c t ih =>
    obtain ⟨k, x⟩ := c
    by_cases hk : k = a <;> simp_all [dropCell, readCell]

theorem readCell_dropCell_other {a b : Nat} {l : List Host.Cell} (h : b ≠ a) :
    readCell b (dropCell a l) = readCell b l := by
  induction l with
  | nil => rfl
  | cons c t ih =>
    obtain ⟨k, x⟩ := c
    by_cases hk : k = a
    · have : k ≠ b := fun e => h (e ▸ hk)
      simp_all [dropCell, readCell]
    · simp_all [dropCell, readCell]

/-- A read after a write to the same place gives the value written. -/
theorem readCell_writeCell_self (a : Nat) (v : Byte) (l : List Host.Cell) :
    readCell a (writeCell a v l) = v := by
  unfold writeCell
  split
  · next h => rw [readCell_dropCell_self, h]
  · exact readCell_insertCell_self fun c hc => by simpa using (List.mem_filter.1 hc).2

/-- A write leaves every other place alone. -/
theorem readCell_writeCell_other {a b : Nat} (v : Byte) (l : List Host.Cell) (h : b ≠ a) :
    readCell b (writeCell a v l) = readCell b l := by
  unfold writeCell
  split
  · exact readCell_dropCell_other h
  · rw [readCell_insertCell_other h, readCell_dropCell_other h]

theorem mem_insertCell {a : Nat} {v : Byte} {l : List Host.Cell} {c : Host.Cell}
    (h : c ∈ insertCell a v l) : c = (a, v) ∨ c ∈ l := by
  induction l with
  | nil => simpa [insertCell] using h
  | cons d t ih =>
    obtain ⟨k, x⟩ := d
    by_cases hk : a < k
    · simpa [insertCell, hk] using h
    · simp only [insertCell, hk, if_false, List.mem_cons] at h
      rcases h with h | h
      · exact .inr (by simp [h])
      · exact (ih h).imp_right fun h => by simp [h]

theorem pairwise_insertCell {a : Nat} {v : Byte} {l : List Host.Cell}
    (sorted : l.Pairwise fun c d => c.1 < d.1) (fresh : ∀ c ∈ l, c.1 ≠ a) :
    (insertCell a v l).Pairwise fun c d => c.1 < d.1 := by
  induction l with
  | nil => simp [insertCell]
  | cons d t ih =>
    obtain ⟨k, x⟩ := d
    obtain ⟨least, rest⟩ := List.pairwise_cons.1 sorted
    have hka : k ≠ a := fresh (k, x) (by simp)
    by_cases hk : a < k
    · simp only [insertCell, hk, if_true]
      refine List.pairwise_cons.2 ⟨fun c hc => ?_, sorted⟩
      rcases List.mem_cons.1 hc with rfl | hc
      · exact hk
      · exact hk.trans (least c hc)
    · simp only [insertCell, hk, if_false]
      refine List.pairwise_cons.2 ⟨fun c hc => ?_, ih rest fun c hc => fresh c (by simp [hc])⟩
      rcases mem_insertCell hc with rfl | hc
      · simp only; omega
      · exact least c hc

/-- A write to an existing cell keeps the canonical form. -/
theorem cellsWf_writeCell {a : Nat} (v : Byte) {l : List Host.Cell} (ha : a < Config.memCells)
    (h : cellsWf l) : cellsWf (writeCell a v l) := by
  have dropped : cellsWf (dropCell a l) :=
    ⟨h.1.sublist List.filter_sublist, fun c hc => h.2 c (List.mem_filter.1 hc).1⟩
  unfold writeCell
  split
  · exact dropped
  · next hv =>
    refine ⟨pairwise_insertCell dropped.1 fun c hc => by simpa using (List.mem_filter.1 hc).2,
      fun c hc => ?_⟩
    rcases mem_insertCell hc with rfl | hc
    · exact ⟨ha, hv⟩
    · exact dropped.2 c hc

/-! ### The memory -/

theorem byte_toNat_lt_memCells (a : Byte) : a.toNat < Config.memCells := a.isLt

@[simp] theorem Memory.opcodeAt_writeOperand (m : Memory) (a b v : Byte) :
    (m.writeOperand a v).opcodeAt b = m.opcodeAt b := rfl

theorem Memory.operandAt_writeOperand (m : Memory) (a b v : Byte) :
    (m.writeOperand a v).operandAt b = if b = a then v else m.operandAt b := by
  split
  · next h => subst h; exact readCell_writeCell_self _ _ _
  · next h => exact readCell_writeCell_other _ _ fun e => h (BitVec.eq_of_toNat_eq e)

theorem Memory.opcodeAt_writeWord (m : Memory) (a b : Byte) (w : Word) :
    (m.writeWord a w).opcodeAt b = if b = a then opcodeField w else m.opcodeAt b := by
  split
  · next h => subst h; exact readCell_writeCell_self _ _ _
  · next h => exact readCell_writeCell_other _ _ fun e => h (BitVec.eq_of_toNat_eq e)

theorem Memory.operandAt_writeWord (m : Memory) (a b : Byte) (w : Word) :
    (m.writeWord a w).operandAt b = if b = a then operandField w else m.operandAt b := by
  split
  · next h => subst h; exact readCell_writeCell_self _ _ _
  · next h => exact readCell_writeCell_other _ _ fun e => h (BitVec.eq_of_toNat_eq e)

@[simp] theorem opcodeField_joinFields (p n : Byte) : opcodeField (joinFields p n) = p :=
  BitVec.extractLsb'_append_eq_left

@[simp] theorem operandField_joinFields (p n : Byte) : operandField (joinFields p n) = n :=
  BitVec.extractLsb'_append_eq_right

/-- The bits of a joined cell, low half first (R8, R71). -/
theorem getLsbD_joinFields (p n : Byte) (i : Nat) :
    (joinFields p n).getLsbD i = if i < 8 then n.getLsbD i else p.getLsbD (i - 8) :=
  BitVec.getLsbD_append

@[simp] theorem joinFields_fields (w : Word) : joinFields (opcodeField w) (operandField w) = w := by
  simp only [opcodeField, operandField, joinFields]
  ext i hi
  simp only [BitVec.getElem_append, BitVec.getElem_extractLsb']
  split
  · simp [BitVec.getLsbD_eq_getElem hi]
  · next h => simp [show 8 + (i - 8) = i by omega, BitVec.getLsbD_eq_getElem hi]

@[simp] theorem Memory.opcodeField_cellAt (m : Memory) (a : Byte) :
    opcodeField (m.cellAt a) = m.opcodeAt a := opcodeField_joinFields _ _

@[simp] theorem Memory.operandField_cellAt (m : Memory) (a : Byte) :
    operandField (m.cellAt a) = m.operandAt a := operandField_joinFields _ _

theorem Memory.cellAt_writeWord (m : Memory) (a b : Byte) (w : Word) :
    (m.writeWord a w).cellAt b = if b = a then w else m.cellAt b := by
  unfold Memory.cellAt
  rw [Memory.opcodeAt_writeWord, Memory.operandAt_writeWord]
  split <;> simp

@[simp] theorem Memory.cellAt_clear (a : Byte) : Memory.clear.cellAt a = 0 := by
  decide +revert

/-! ### The canonical form -/

theorem Memory.wf_writeOperand {m : Memory} (a v : Byte) (h : m.wf) : (m.writeOperand a v).wf :=
  ⟨h.1, cellsWf_writeCell v (byte_toNat_lt_memCells a) h.2⟩

theorem Memory.wf_writeWord {m : Memory} (a : Byte) (w : Word) (h : m.wf) : (m.writeWord a w).wf :=
  ⟨cellsWf_writeCell _ (byte_toNat_lt_memCells a) h.1,
    cellsWf_writeCell _ (byte_toNat_lt_memCells a) h.2⟩

theorem Memory.wf_clear : Memory.clear.wf := by decide

/-! ### The memory with one word in every cell -/

theorem readCell_of_mem {a : Nat} (v : Byte) {l : List Nat} (h : a ∈ l) :
    readCell a (l.map fun k => (k, v)) = v := by
  induction l with
  | nil => cases h
  | cons k t ih =>
    by_cases hk : k = a
    · simp [readCell, hk]
    · simpa [readCell, hk] using ih (by simpa [Ne.symm hk] using h)

/-- Every byte of a filled half reads as the one it was filled with. -/
theorem readCell_filledCells {a : Nat} (v : Byte) (h : a < Config.memCells) :
    readCell a (Decisions.filledCells v) = v := by
  unfold Decisions.filledCells
  split
  · next hv => exact hv.symm
  · exact readCell_of_mem v (List.mem_range.2 h)

theorem cellsWf_filledCells (v : Byte) : cellsWf (Decisions.filledCells v) := by
  unfold Decisions.filledCells
  split
  · exact ⟨.nil, fun _ h => nomatch h⟩
  · next hv =>
    refine ⟨List.pairwise_map.2 List.pairwise_lt_range, fun c hc => ?_⟩
    obtain ⟨k, hk, rfl⟩ := List.mem_map.1 hc
    exact ⟨List.mem_range.1 hk, hv⟩

/-- Every cell of a filled memory holds the word it was filled with (R40, R41). -/
@[simp] theorem Memory.cellAt_filled (w : Word) (a : Byte) : (Memory.filled w).cellAt a = w := by
  simp [Memory.cellAt, Memory.opcodeAt, Memory.operandAt, Memory.filled,
    readCell_filledCells _ (byte_toNat_lt_memCells a)]

theorem Memory.wf_filled (w : Word) : (Memory.filled w).wf :=
  ⟨cellsWf_filledCells _, cellsWf_filledCells _⟩

/-- The default reset and clear value lists nothing (decision D13). -/
theorem Memory.filled_zero : Memory.filled 0x0000 = Memory.clear := by decide

theorem State.resetUnder_mem_wf (c : Config) : (State.resetUnder c).mem.wf := Memory.wf_filled _

theorem State.reset_mem_wf : State.reset.mem.wf := by decide

theorem State.wf_placeAtPc {s : State} (w : Word) (h : s.mem.wf) : (s.placeAtPc w).mem.wf := by
  unfold State.placeAtPc
  split <;> exact Memory.wf_writeWord _ _ h

end Sys2Proof.Machine
end

