-- ==== Sys2Proof/Laws/Ops.lean ====
section
/-!
SUPPORT. One lemma per shared operation that says once everything it can do; later proofs cite it
instead of unfolding the operation.
-/

namespace Sys2Proof.Machine

/-! ### Normalisation and the accumulator write -/

theorem normalise_toNat (value : Int) : ((normalise value).toNat : Int) = value % 256 := by
  have := Int.emod_nonneg value (show (256 : Int) ≠ 0 by decide)
  simp [normalise, BitVec.toNat_ofInt]; omega

theorem normalise_toNat_of_inRange {value : Nat} (_h : value ≤ 255) :
    normalise value = BitVec.ofNat 8 value := by
  apply BitVec.eq_of_toNat_eq
  have := normalise_toNat value
  simp only [BitVec.toNat_ofNat]; omega

@[simp] theorem normalise_byte (b : Byte) : normalise b.toNat = b := by
  rw [normalise_toNat_of_inRange (by omega)]; simp

/-- Everything the accumulator write does (R33). -/
theorem State.accWrite_written (value : Int) (s : State) : AccWritten value s (s.accWrite value) := by
  refine ⟨rfl, normalise_toNat value, fun h => ?_, fun h => ?_, fun h => ?_⟩
  all_goals simp only [State.accWrite_sr, Flags.afterAccWrite]
  · rw [if_pos h]
  · rw [if_neg (by omega), if_pos h]
  · rw [if_neg (by omega), if_neg (by omega)]

/-- An accumulator write of a value in range. -/
theorem State.accWrite_inRange {value : Nat} (h : value ≤ 255) (s : State) :
    s.accWrite value = { s with acc := BitVec.ofNat 8 value, sr := { s.sr with z := false } } := by
  unfold State.accWrite Flags.afterAccWrite
  rw [normalise_toNat_of_inRange h, if_neg (by omega), if_neg (by omega)]

theorem State.accWrite_byte (b : Byte) (s : State) :
    s.accWrite b.toNat = { s with acc := b, sr := { s.sr with z := false } } := by
  rw [State.accWrite_inRange (by omega)]; simp

/-- The overflow flag is never cleared by an accumulator write (R31). -/
theorem Flags.afterAccWrite_v {f : Flags} (value : Int) (h : f.v = true) :
    (f.afterAccWrite value).v = true := by
  unfold Flags.afterAccWrite
  split
  · rfl
  · split
    · rfl
    · exact h

/-- The zero flag is never set by an accumulator write (R31). -/
theorem Flags.afterAccWrite_z {f : Flags} (value : Int) (h : f.z = false) :
    (f.afterAccWrite value).z = false := by
  unfold Flags.afterAccWrite
  split
  · exact h
  · split
    · exact h
    · rfl

/-! ### Operands -/

@[simp] theorem State.direct_eq (s : State) (a : Byte) : s.direct a = (s.mem.operandAt a).toNat := rfl

@[simp] theorem State.directUnder_spec (s : State) (a : Byte) :
    s.directUnder Config.spec a = (s.mem.operandAt a).toNat := rfl

@[simp] theorem State.indirectUnder_spec (s : State) (a : Byte) :
    s.indirectUnder Config.spec a = (s.mem.operandAt (s.mem.operandAt a)).toNat := rfl

@[simp] theorem State.indexedAddress_eq (s : State) (a : Byte) : s.indexedAddress a = a + s.ix := by
  apply BitVec.eq_of_toNat_eq
  have := normalise_toNat ((a.toNat + s.ix.toNat : Nat) : Int)
  simp only [State.indexedAddress, BitVec.toNat_add]; omega

@[simp] theorem State.indexedUnder_spec (s : State) (a : Byte) :
    s.indexedUnder Config.spec a = (s.mem.operandAt (a + s.ix)).toNat := by
  simp [State.indexedUnder]

@[simp] theorem State.cmiValueUnder_spec (s : State) (a : Byte) :
    s.cmiValueUnder Config.spec a = (s.mem.operandAt (s.mem.operandAt a)).toNat := rfl

/-- No input gives `INPUT_FALLBACK` (R6, R140). -/
@[simp] theorem inputCode_none (c : Config) : inputCode c none = 0 := rfl

/-- At the default `INPUT_BITS` every code is a byte (decision D16). -/
theorem inputCode_lt (answer : Option Nat) : inputCode Config.spec answer < 256 := by
  cases answer with
  | none => decide
  | some k => exact Nat.mod_lt k (by decide)

/-- What a register operand can lead to (R22, R173): ACC for 0, IX for 1, the fault for the rest. -/
theorem withRegister_cases (r : Byte) (s : State) (k : RegName → State) :
    (r = 0 ∧ withRegister Config.spec [.acc, .ix] r s k = .next (k .acc)) ∨
    (r = 1 ∧ withRegister Config.spec [.acc, .ix] r s k = .next (k .ix)) ∨
    (2 ≤ r.toNat ∧ withRegister Config.spec [.acc, .ix] r s k = .fault (.unrecognizedRegister s)) := by
  unfold withRegister
  rw [Config.spec_regCode, Decisions.regCode]
  by_cases h0 : r = 0
  · subst h0; exact .inl ⟨rfl, by simp⟩
  · by_cases h1 : r = 1
    · subst h1; exact .inr (.inl ⟨rfl, by simp⟩)
    · refine .inr (.inr ⟨?_, by rw [if_neg h0, if_neg h1]; rfl⟩)
      have : r.toNat ≠ 0 := fun e => h0 (BitVec.eq_of_toNat_eq e)
      have : r.toNat ≠ 1 := fun e => h1 (BitVec.eq_of_toNat_eq e)
      omega

/-! ### The fetch -/

/-- Everything the fetch can do (R195, R26). -/
theorem fetch_cases (s : State) :
    (s.pc.toNat < 256 ∧ fetch Config.spec s = .next (s.fetched s.nextCell)) ∨
    (256 ≤ s.pc.toNat ∧ fetch Config.spec s = .fault (.fetchOutOfRange s)) := by
  unfold fetch State.nextCell
  by_cases h : s.pc.toNat < 256
  · exact .inl ⟨h, if_pos h⟩
  · exact .inr ⟨by omega, if_neg h⟩

/-- PC after a fetch: the address plus one, never normalised (R24). -/
theorem State.fetched_pc_toNat {s : State} (w : Word) (h : s.pc.toNat < 256) :
    (s.fetched w).pc.toNat = s.pc.toNat + 1 := by
  simp only [State.fetched_pc, Config.spec_pcOverrun, advancePc, BitVec.toNat_add]
  simp; omega

/-- What the dispatch sees is what the fetched cell decodes to (R195). -/
@[simp] theorem State.current_fetched (w : Word) (s : State) :
    (s.fetched w).current Config.spec = decode w := rfl

end Sys2Proof.Machine
end

