-- ==== Sys2Proof/Laws/Step.lean ====
section
/-!
SUPPORT. Inversion of a step: where a next state can come from.
-/

namespace Sys2Proof.Machine

/-- A step that answers a next state fetched a cell that exists, decoded it, and ran its meaning. -/
theorem step_next_cases {s t : State} (h : step s = .next t) :
    s.pc.toNat < 256 ∧ ∃ i, decode s.nextCell = .instr i ∧ exec i (s.fetched s.nextCell) = .next t := by
  rcases fetch_cases s with ⟨hpc, hf⟩ | ⟨_, hf⟩
  · refine ⟨hpc, ?_⟩
    simp only [step, cycle, hf, State.current_fetched] at h
    cases hd : decode s.nextCell with
    | instr i => exact ⟨i, rfl, by simpa [hd] using h⟩
    | unrecognizedOpcode p => simp [hd, unrecognizedOpcode, raise] at h
  · simp [step, cycle, hf] at h

end Sys2Proof.Machine
end

