-- ==== Sys2Proof/Laws/Entry.lean ====
section
/-!
SUPPORT. The host's entry points keep the canonical form of memory, and one step of the run loop.
-/

namespace Sys2Proof.Machine

theorem imageMemory_wf {base : Memory} (hb : base.wf) (image : List Nat) :
    ∀ a : Nat, (imageMemory base a image).wf := by
  induction image with
  | nil => exact fun _ => hb
  | cons w ws ih => exact fun a => Memory.wf_writeWord _ _ (ih (a + 1))

theorem memoryOfImage_wf {base : Memory} (hb : base.wf) {image : List Nat} {m : Memory}
    (h : memoryOfImage base image = some m) : m.wf := by
  unfold memoryOfImage at h
  split at h
  · cases h; exact imageMemory_wf hb image 0
  · cases h

/-- Whatever `loadMemory` loads is in canonical form, and it changes nothing but memory (R64). -/
theorem loadMemory_cases {image : List Nat} {s t : State} (h : loadMemory image s = some t) :
    t.mem.wf ∧ t = { s with mem := t.mem } := by
  unfold loadMemory at h
  split at h
  · next m hm => cases h; exact ⟨memoryOfImage_wf Memory.wf_clear hm, rfl⟩
  · cases h

/-- The memory construction leaves: the image over the cells' reset value (R40), in canonical form. -/
theorem constructUnder_mem {c : Config} {args : ConstructArgs} {s : State}
    (h : constructUnder c args = some s) :
    memoryArg (Memory.filled c.resetValues.cell) args.memory = some s.mem ∧ s.mem.wf := by
  unfold constructUnder at h
  simp only at h
  split at h
  · next m pc acc ix sr hm _ _ _ _ =>
    cases h
    refine ⟨hm, ?_⟩
    unfold memoryArg at hm
    split at hm
    · cases hm; exact Memory.wf_filled _
    · exact memoryOfImage_wf (Memory.wf_filled _) hm
  · cases h

theorem clearMemoryUnder_wf (c : Config) (s : State) : (clearMemoryUnder c s).mem.wf :=
  Memory.wf_filled _

theorem clearMemory_wf (s : State) : (clearMemory s).mem.wf := clearMemoryUnder_wf _ s

/-- One more step of the run loop (R196). -/
theorem runLoop_succ (next : State → Result) (k : Nat) (s : State) :
    runLoop next (k + 1) s = match next s with
      | .next t => (match t.ended with
        | some reason => .ended reason t
        | none => runLoop next k t)
      | .fault r => .faulted r
      | .refused r => .refused r := rfl

/-- `k + 1` single steps from a state whose first step answers `t` are `k` steps from `t` (R197). -/
theorem core_run_succ {s t : State} (h : step s = .next t) (k : Nat) :
    core.run (k + 1) s = core.run k t := by
  rw [Host.Core.run.eq_2 core s k, show core.step s = .next t from h]

/-- Single steps stop at the first fault (R176). -/
theorem core_run_fault {s : State} {r : Fault} (h : step s = .fault r) (k : Nat) :
    core.run (k + 1) s = .fault r := by
  rw [Host.Core.run.eq_2 core s k, show core.step s = .fault r from h]

theorem goesOnFor_zero (s : State) : goesOnFor 0 s := fun _ h => absurd h (Nat.not_lt_zero _)

/-- Going on for one step more, by what the first step reports (R197). -/
theorem goesOnFor_succ {s t : State} (h : step s = .next t) (k : Nat) :
    goesOnFor (k + 1) s ↔ t.ended = none ∧ goesOnFor k t := by
  constructor
  · intro g
    refine ⟨?_, fun j hj => ?_⟩
    · obtain ⟨u, e, hu⟩ := g 0 (Nat.succ_pos k)
      rw [core_run_succ h] at e
      cases e; exact hu
    · simpa only [core_run_succ h] using g (j + 1) (Nat.succ_lt_succ hj)
  · rintro ⟨hn, g⟩ j hj
    cases j with
    | zero => exact ⟨t, core_run_succ h 0, hn⟩
    | succ j => simpa only [core_run_succ h] using g j (Nat.lt_of_succ_lt_succ hj)

end Sys2Proof.Machine
end

