-- ==== Sys2Proof/Laws/Parametric.lean ====
section
/-!
SUPPORT. The machine is the one under any parameters at the spec's defaults (R7), so that a claim about
every configuration is a claim about `exec`, `step` and `runCode` too.
-/

namespace Sys2Proof.Machine

theorem execUnder_spec (i : Instr) (s : State) : execUnder Config.spec i s = exec i s := by
  cases i <;> rfl

theorem stepUnder_spec (s : State) : stepUnder Config.spec s = step s := by
  have : execUnder Config.spec = exec := funext fun i => funext (execUnder_spec i)
  rw [stepUnder, this, step]

theorem runCodeUnder_spec (budget startPc : Nat) (s : State) :
    runCodeUnder Config.spec budget startPc s = runCode budget startPc s := by
  have : stepUnder Config.spec = step := funext stepUnder_spec
  rw [runCodeUnder, this, runCode]

theorem resetUnder_spec : State.resetUnder Config.spec = State.reset := rfl

theorem clearMemoryUnder_spec (s : State) : clearMemoryUnder Config.spec s = clearMemory s := rfl

theorem constructUnder_spec (args : ConstructArgs) : constructUnder Config.spec args = construct args := rfl

end Sys2Proof.Machine
end

