-- ==== Sys2Proof/Laws/PerInstr.lean ====
section
/-!
SUPPORT. The family `EncodeFields`, one lemma per constructor: the two fields of an instruction's cell
are its opcode's number and its operand byte, and the two together give the instruction back (spec
30_encoding.md R71, R72, R74).
-/

namespace Sys2Proof.Laws.EncodeFields

open Sys2Proof.Machine

/-- The fields of the cell of an instruction (R71), and nothing of it is lost in them (R74). -/
def Statement (i : Instr) : Prop :=
  opcodeField (encode i) = Decisions.opcodeMap i.opcode ∧ operandField (encode i) = i.operand ∧
    i.opcode.toInstr i.operand = i

/-- The fields of any joined cell. -/
theorem of_toInstr {i : Instr} (h : i.opcode.toInstr i.operand = i) : Statement i :=
  ⟨opcodeField_joinFields _ _, operandField_joinFields _ _, h⟩

theorem endRun (b : Byte) : Statement (.endRun b) := of_toInstr rfl
theorem ldm (b : Byte) : Statement (.ldm b) := of_toInstr rfl
theorem ldr (b : Byte) : Statement (.ldr b) := of_toInstr rfl
theorem ldd (b : Byte) : Statement (.ldd b) := of_toInstr rfl
theorem ldi (b : Byte) : Statement (.ldi b) := of_toInstr rfl
theorem ldx (b : Byte) : Statement (.ldx b) := of_toInstr rfl
theorem sto (b : Byte) : Statement (.sto b) := of_toInstr rfl
theorem mov (b : Byte) : Statement (.mov b) := of_toInstr rfl
theorem adda (b : Byte) : Statement (.adda b) := of_toInstr rfl
theorem addn (b : Byte) : Statement (.addn b) := of_toInstr rfl
theorem suba (b : Byte) : Statement (.suba b) := of_toInstr rfl
theorem subn (b : Byte) : Statement (.subn b) := of_toInstr rfl
theorem inc (b : Byte) : Statement (.inc b) := of_toInstr rfl
theorem dec (b : Byte) : Statement (.dec b) := of_toInstr rfl
theorem cmpa (b : Byte) : Statement (.cmpa b) := of_toInstr rfl
theorem cmpn (b : Byte) : Statement (.cmpn b) := of_toInstr rfl
theorem cmi (b : Byte) : Statement (.cmi b) := of_toInstr rfl
theorem jmp (b : Byte) : Statement (.jmp b) := of_toInstr rfl
theorem jpe (b : Byte) : Statement (.jpe b) := of_toInstr rfl
theorem jpn (b : Byte) : Statement (.jpn b) := of_toInstr rfl
theorem inp (b : Byte) : Statement (.inp b) := of_toInstr rfl
theorem outp (b : Byte) : Statement (.outp b) := of_toInstr rfl
theorem anda (b : Byte) : Statement (.anda b) := of_toInstr rfl
theorem andn (b : Byte) : Statement (.andn b) := of_toInstr rfl
theorem ora (b : Byte) : Statement (.ora b) := of_toInstr rfl
theorem orn (b : Byte) : Statement (.orn b) := of_toInstr rfl
theorem xora (b : Byte) : Statement (.xora b) := of_toInstr rfl
theorem xorn (b : Byte) : Statement (.xorn b) := of_toInstr rfl
theorem lsl (b : Byte) : Statement (.lsl b) := of_toInstr rfl
theorem lsr (b : Byte) : Statement (.lsr b) := of_toInstr rfl
theorem brk (b : Byte) : Statement (.brk b) := of_toInstr rfl
theorem err (b : Byte) : Statement (.err b) := of_toInstr rfl

end Sys2Proof.Laws.EncodeFields
end

