-- ==== Sys2Proof/Tests/Slice0.lean ====
section
/-!
SUPPORT. Tests: every expected value is from spec/95_test_vectors.md (its id is named) or from the
worked example of the instruction's own rule. First the decoder on words written out bit by bit from
30_encoding.md R80, then single steps, then the host's entry points and the assembler, last a named
witness for the hypotheses of every statement.
-/

namespace Sys2Proof.Tests

open Sys2Proof Sys2Proof.Machine

/-- A small state: PC, ACC, IX, SR as the digits NVCZ, and some cells; the rest as at reset. -/
def small (pc : BitVec 9) (acc ix : Byte) (sr : BitVec 4) (cells : List (Byte × Word)) : State :=
  { State.reset with
    pc := pc, acc := acc, ix := ix, sr := Flags.ofBits Config.spec.srLayout sr
    mem := cells.foldl (fun m c => m.writeWord c.1 c.2) Memory.clear }

/-- What is read off the next state, if there is one. -/
def onNext {α : Type} (r : Result) (f : State → α) : Option α :=
  match r with
  | .next t    => some (f t)
  | .fault _   => none
  | .refused _ => none

/-- The fault, if the step ends in one. -/
def faultOf (r : Result) : Option Fault :=
  match r with
  | .next _    => none
  | .fault k   => some k
  | .refused _ => none

/-- ACC and SR as the digits NVCZ. -/
def accSr (t : State) : Byte × BitVec 4 := (t.acc, getStatus t)

/-! ### Decoding: the patterns of R80, each with the operand bits 10100101 -/

theorem test_decode_endRun : decode 0b0000000010100101 = .instr (.endRun 165) := by decide
theorem test_decode_ldm : decode 0b0000000110100101 = .instr (.ldm 165) := by decide
theorem test_decode_ldr : decode 0b0000001010100101 = .instr (.ldr 165) := by decide
theorem test_decode_ldd : decode 0b0000001110100101 = .instr (.ldd 165) := by decide
theorem test_decode_ldi : decode 0b0000010010100101 = .instr (.ldi 165) := by decide
theorem test_decode_ldx : decode 0b0000010110100101 = .instr (.ldx 165) := by decide
theorem test_decode_sto : decode 0b0000011010100101 = .instr (.sto 165) := by decide
theorem test_decode_mov : decode 0b0000011110100101 = .instr (.mov 165) := by decide
theorem test_decode_adda : decode 0b0000100010100101 = .instr (.adda 165) := by decide
theorem test_decode_addn : decode 0b0000100110100101 = .instr (.addn 165) := by decide
theorem test_decode_suba : decode 0b0000101010100101 = .instr (.suba 165) := by decide
theorem test_decode_subn : decode 0b0000101110100101 = .instr (.subn 165) := by decide
theorem test_decode_inc : decode 0b0000110010100101 = .instr (.inc 165) := by decide
theorem test_decode_dec : decode 0b0000110110100101 = .instr (.dec 165) := by decide
theorem test_decode_cmpa : decode 0b0000111010100101 = .instr (.cmpa 165) := by decide
theorem test_decode_cmpn : decode 0b0000111110100101 = .instr (.cmpn 165) := by decide
theorem test_decode_cmi : decode 0b0001000010100101 = .instr (.cmi 165) := by decide
theorem test_decode_jmp : decode 0b0001000110100101 = .instr (.jmp 165) := by decide
theorem test_decode_jpe : decode 0b0001001010100101 = .instr (.jpe 165) := by decide
theorem test_decode_jpn : decode 0b0001001110100101 = .instr (.jpn 165) := by decide
theorem test_decode_inp : decode 0b0001010010100101 = .instr (.inp 165) := by decide
theorem test_decode_outp : decode 0b0001010110100101 = .instr (.outp 165) := by decide
theorem test_decode_anda : decode 0b0001011010100101 = .instr (.anda 165) := by decide
theorem test_decode_andn : decode 0b0001011110100101 = .instr (.andn 165) := by decide
theorem test_decode_ora : decode 0b0001100010100101 = .instr (.ora 165) := by decide
theorem test_decode_orn : decode 0b0001100110100101 = .instr (.orn 165) := by decide
theorem test_decode_xora : decode 0b0001101010100101 = .instr (.xora 165) := by decide
theorem test_decode_xorn : decode 0b0001101110100101 = .instr (.xorn 165) := by decide
theorem test_decode_lsl : decode 0b0001110010100101 = .instr (.lsl 165) := by decide
theorem test_decode_lsr : decode 0b0001110110100101 = .instr (.lsr 165) := by decide
theorem test_decode_brk : decode 0b1111111010100101 = .instr (.brk 165) := by decide
theorem test_decode_err : decode 0b1111111110100101 = .instr (.err 165) := by decide

/-- Vectors E10 and E11: the two ends of the illegal range. -/
theorem test_decode_illegal_low : decode 0x1E00 = .unrecognizedOpcode 0x1E := by decide
theorem test_decode_illegal_high : decode 0xFD00 = .unrecognizedOpcode 0xFD := by decide
/-- S1, S11: the words of the source's own example. -/
theorem test_encode_example : encode (.ldm 200) = 0x01C8 ∧ encode (.addn 100) = 0x0964 := by decide
theorem test_decodeTableWord : decodeTableWord 16 0xFF07 = some (.err 7) ∧ decodeTableWord 16 0x2000 = none := by
  decide

/-! ### Well-formedness: an ill-formed term for each check (R83) -/

theorem test_wellFormed_mov : (Instr.mov 1).wellFormed = true ∧ (Instr.mov 2).wellFormed = false := by decide
theorem test_wellFormed_inc : (Instr.inc 0).wellFormed = true ∧ (Instr.inc 5).wellFormed = false := by decide
theorem test_wellFormed_dec : (Instr.dec 1).wellFormed = true ∧ (Instr.dec 255).wellFormed = false := by decide

/-! ### The accumulator write (W1 to W8) -/

theorem test_accWrite_w1 : accSr ((small 0 0 0 0b0000 []).accWrite 300) = (44, 0b0110) := by decide
theorem test_accWrite_w2 : accSr ((small 0 0 0 0b0001 []).accWrite 256) = (0, 0b0111) := by decide
theorem test_accWrite_w3 : accSr ((small 0 0 0 0b0000 []).accWrite (-5)) = (251, 0b1100) := by decide
theorem test_accWrite_w4 : accSr ((small 0 0 0 0b0110 []).accWrite (-1)) = (255, 0b1100) := by decide
theorem test_accWrite_w5 : accSr ((small 0 0 0 0b1100 []).accWrite 510) = (254, 0b0110) := by decide
theorem test_accWrite_w6 : accSr ((small 0 0 0 0b1111 []).accWrite 0) = (0, 0b1110) := by decide
theorem test_accWrite_w7 : accSr ((small 0 0 0 0b1101 []).accWrite 255) = (255, 0b1100) := by decide
theorem test_accWrite_w8 : accSr ((small 0 0 0 0b0000 []).accWrite 77) = (77, 0b0000) := by decide

/-! ### Single steps -/

/-- L1. -/
theorem test_ldm_zero :
    onNext (step (small 0 9 0 0b0001 [(0, 0x0100)])) accSr = some (0, 0b0000) := by decide
/-- L3. -/
theorem test_ldr :
    onNext (step (small 0 0 0 0b1111 [(0, 0x02FF)])) (fun t => (t.ix, getStatus t)) = some (255, 0b1111) := by decide
/-- L5. -/
theorem test_ldd_instruction_cell :
    onNext (step (small 0 0 0 0b0001 [(0, 0x030A), (10, 0x0937)])) accSr = some (55, 0b0000) := by decide
/-- L8. -/
theorem test_ldi_through_instruction_cell :
    onNext (step (small 0 0 0 0b0000 [(0, 0x0414), (20, 0x031E), (30, 0x0005)])) State.acc = some (5) := by decide
/-- L9. -/
theorem test_ldx_wraps :
    onNext (step (small 0 0 10 0b0000 [(0, 0x05FA), (4, 0x0011)])) (fun t => (t.acc, t.ix)) = some (17, 10) := by decide
/-- L11. -/
theorem test_sto_keeps_opcode :
    onNext (step (small 0 0x2C 0 0b0000 [(0, 0x0628), (40, 0x0300)])) (fun t => t.mem.cellAt 40) = some (0x032C) := by decide
/-- L12. -/
theorem test_sto_own_cell :
    onNext (step (small 7 9 0 0b0000 [(7, 0x0607)])) (fun t => (t.mem.cellAt 7, t.mar, t.mdr, t.cir, t.pc)) = some (0x0609, 0x0607, 7, 0x06, 8) := by decide
/-- L14. -/
theorem test_mov_ix :
    onNext (step (small 0 12 0 0b1111 [(0, 0x0701)])) (fun t => (t.ix, t.acc, getStatus t)) = some (12, 12, 0b1111) := by decide
/-- L15. -/
theorem test_mov_acc :
    onNext (step (small 0 12 0 0b0001 [(0, 0x0700)])) accSr = some (12, 0b0000) := by decide
/-- A3. -/
theorem test_addn_overflow_keeps_zero :
    onNext (step (small 0 255 0 0b0001 [(0, 0x0901)])) accSr = some (0, 0b0111) := by decide
/-- A1, S3. -/
theorem test_addn_source_example :
    onNext (step (small 0 200 0 0b0000 [(0, 0x0964)])) accSr = some (44, 0b0110) := by decide
/-- A6. -/
theorem test_adda :
    onNext (step (small 0 200 0 0b0000 [(0, 0x0809), (9, 0x0064)])) accSr = some (44, 0b0110) := by decide
/-- A12. -/
theorem test_suba :
    onNext (step (small 0 5 0 0b0000 [(0, 0x0A09), (9, 0x000A)])) accSr = some (251, 0b1100) := by decide
/-- A10. -/
theorem test_subn_zero_result :
    onNext (step (small 0 7 0 0b0001 [(0, 0x0B07)])) accSr = some (0, 0b0000) := by decide
/-- A9. -/
theorem test_subn_underflow_after_overflow :
    onNext (step (small 0 0 0 0b0110 [(0, 0x0B01)])) accSr = some (255, 0b1100) := by decide
/-- A13. -/
theorem test_inc_acc_wraps :
    onNext (step (small 0 255 0 0b0001 [(0, 0x0C00)])) accSr = some (0, 0b0000) := by decide
/-- A17. -/
theorem test_inc_ix_wraps :
    onNext (step (small 0 0 255 0b0001 [(0, 0x0C01)])) (fun t => (t.ix, getStatus t)) = some (0, 0b0001) := by decide
/-- A15. -/
theorem test_dec_acc_wraps :
    onNext (step (small 0 0 0 0b0000 [(0, 0x0D00)])) accSr = some (255, 0b0000) := by decide
/-- A18. -/
theorem test_dec_ix_wraps :
    onNext (step (small 0 0 0 0b0001 [(0, 0x0D01)])) (fun t => (t.ix, getStatus t)) = some (255, 0b0001) := by decide
/-- C2. -/
theorem test_cmpn_unequal :
    onNext (step (small 0 3 0 0b1111 [(0, 0x0F05)])) accSr = some (3, 0b1110) := by decide
/-- C5. -/
theorem test_cmpa_operand_half :
    onNext (step (small 0 65 0 0b0000 [(0, 0x0E1E), (30, 0x0941)])) accSr = some (65, 0b0001) := by decide
/-- C7. -/
theorem test_cmi_not_the_pointer :
    onNext (step (small 0 30 0 0b0001 [(0, 0x1014), (20, 0x001E), (30, 0x0009)])) accSr = some (30, 0b0000) := by decide
/-- C6. -/
theorem test_cmi :
    onNext (step (small 0 9 0 0b0000 [(0, 0x1014), (20, 0x001E), (30, 0x0009)])) accSr = some (9, 0b0001) := by decide
/-- C9. -/
theorem test_jmp_at_the_top :
    onNext (step (small 255 0 0 0b0000 [(255, 0x11FF)])) State.pc = some (255) := by decide
/-- C10. -/
theorem test_jpe_taken :
    onNext (step (small 3 0 0 0b0001 [(3, 0x1207)])) (fun t => (t.pc, getStatus t)) = some (7, 0b0001) := by decide
/-- C11. -/
theorem test_jpe_not_taken :
    onNext (step (small 3 0 0 0b0000 [(3, 0x1207)])) State.pc = some (4) := by decide
/-- C12. -/
theorem test_jpn_taken :
    onNext (step (small 5 0 0 0b0000 [(5, 0x1302)])) State.pc = some (2) := by decide
/-- C13. -/
theorem test_jpn_not_taken :
    onNext (step (small 5 0 0 0b0001 [(5, 0x1302)])) State.pc = some (6) := by decide
/-- I1 and I3, the answers 65 and 300 given to the shared operation of IN. -/
theorem test_input_answers :
    accSr ((small 0 0 0 0b0001 []).input 65) = (65, 0b0000) ∧
    accSr ((small 0 0 0 0b0000 []).input 300) = (44, 0b0110) := by decide
/-- R140: one answer of the host is taken, whatever it is. -/
theorem test_inp_clears_zero :
    onNext (step (small 0 9 0 0b0001 [(0, 0x1400)])) (fun t => (t.draws, t.pc)) = some (1, 1) := by decide
/-- I4. -/
theorem test_outp :
    onNext (step (small 0 44 0 0b0000 [(0, 0x1500)])) (fun t => (t.trace, t.acc)) = some ([.output 44], 44) := by decide
/-- B7. -/
theorem test_anda :
    onNext (step (small 0 0xCC 0 0b0000 [(0, 0x1609), (9, 0x00F0)])) accSr = some (0xC0, 0b0000) := by decide
/-- B1. -/
theorem test_andn :
    onNext (step (small 0 0xAB 0 0b0001 [(0, 0x170F)])) accSr = some (0x0B, 0b0000) := by decide
/-- B8. -/
theorem test_ora :
    onNext (step (small 0 0x0C 0 0b0000 [(0, 0x1809), (9, 0x0030)])) accSr = some (0x3C, 0b0000) := by decide
/-- B3. -/
theorem test_orn :
    onNext (step (small 0 0x81 0 0b0000 [(0, 0x1918)])) accSr = some (0x99, 0b0000) := by decide
/-- B9. -/
theorem test_xora :
    onNext (step (small 0 0xFF 0 0b0000 [(0, 0x1A09), (9, 0x000F)])) accSr = some (0xF0, 0b0000) := by decide
/-- B6. -/
theorem test_xorn_equal :
    onNext (step (small 0 0x5A 0 0b0001 [(0, 0x1B5A)])) accSr = some (0, 0b0000) := by decide
/-- B10. -/
theorem test_lsl_overflow :
    onNext (step (small 0 129 0 0b0000 [(0, 0x1C01)])) accSr = some (2, 0b0110) := by decide
/-- B16. -/
theorem test_lsl_255 :
    onNext (step (small 0 1 0 0b0000 [(0, 0x1CFF)])) accSr = some (0, 0b0110) := by decide
/-- B17. -/
theorem test_lsr :
    onNext (step (small 0 129 0 0b0001 [(0, 0x1D01)])) accSr = some (64, 0b0000) := by decide
/-- B18. -/
theorem test_lsr_8 :
    onNext (step (small 0 255 0 0b0001 [(0, 0x1D08)])) accSr = some (0, 0b0000) := by decide
/-- X3. -/
theorem test_end_at_the_top :
    onNext (step (small 255 0 0 0b0000 [])) (fun t => (t.ended, t.pc)) = some (some .success, 256) := by decide
/-- X2. -/
theorem test_end_data_cell :
    onNext (step (small 9 1 0 0b0001 [(9, 0x002A)])) (fun t => (t.ended, t.mar, t.mdr, accSr t)) = some (some .success, 0x002A, 42, 1, 0b0001) := by decide
/-- X8. -/
theorem test_err_unknown :
    onNext (step (small 0 0 0 0b0000 [(0, 0xFFC8)])) (fun t => (t.trace, t.ended)) = some ([.error .unknown 200], some (.error 200)) := by decide
/-- X7. -/
theorem test_err_kind :
    onNext (step (small 0 0 0 0b0000 [(0, 0xFF02)])) State.trace = some ([.error .unrecognizedRegister 2]) := by decide
/-- X4 and X5: the dump of BRK, and both answers given to its shared operation. -/
theorem test_brk_dump :
    onNext (step (small 2 0 0 0b0000 [(2, 0xFE00)])) (fun t =>
      t.trace.map fun e => match e with
        | .breakpoint d => (d.regs.pc.toNat, d.regs.mar.toNat, d.regs.mdr.toNat, d.regs.cir.toNat)
        | _ => (0, 0, 0, 0)) = some [(3, 0xFE00, 0, 0xFE)] := by decide
theorem test_brk_answers :
    ((small 3 0 0 0b0000 []).takeBreak .goOn).ended = none ∧
    ((small 3 0 0 0b0000 []).takeBreak .endRun).ended = some .breakpoint := by decide

/-! ### Hard failures -/

/-- L16. -/
theorem test_mov_bad_register :
    (match faultOf (step (small 3 12 5 0b0000 [(3, 0x0702)])) with
      | some (.unrecognizedRegister l) => some (l.acc, l.ix, l.pc, l.mar, l.mdr, l.cir)
      | _ => none) = some (12, 5, 4, 0x0702, 2, 0x07) := by decide
/-- A19. -/
theorem test_inc_bad_register :
    (match faultOf (step (small 0 1 1 0b0000 [(0, 0x0C05)])) with
      | some (.unrecognizedRegister l) => some (l.acc, l.ix)
      | _ => none) = some (1, 1) := by decide
/-- X9. -/
theorem test_illegal_opcode :
    (match faultOf (step (small 0 0 0 0b0000 [(0, 0x2000)])) with
      | some (.unrecognizedOpcode l) => some (l.pc, l.mar, l.mdr, l.cir, l.acc)
      | _ => none) = some (1, 0x2000, 0, 0x20, 0) := by decide
/-- X10. -/
theorem test_fetch_past_the_end :
    faultOf (step (small 256 0 0 0b0000 [])) = some (.fetchOutOfRange (small 256 0 0 0b0000 [])) := by decide

/-! ### Parameter values other than the default -/

/-- L5 and A20: `MEMVAL = whole_word` and `INCDEC_WRAP_FLAGS = overflow_rule`. -/
theorem test_other_readings :
    onNext (execUnder { Config.spec with memVal := .wholeWord } (.ldd 10) (small 0 0 0 0b0001 [(10, 0x0937)])) accSr
      = some (55, 0b0111) ∧
    onNext (execUnder { Config.spec with incDecWrapFlags := .overflowRule } (.inc 0) (small 0 255 0 0b0001 [])) accSr
      = some (0, 0b0111) := by decide
/-- R26: `PC_OVERRUN = wrap`, the unsafe direction. -/
theorem test_pc_overrun :
    onNext (stepUnder { Config.spec with pcOverrun := .wrap } (small 255 0 0 0b0000 [(255, 0x0100)])) State.pc
      = some 0 := by decide
/-- R7: another `OPCODE_MAP`, with LDM and LDR exchanged, and another `MAR_BITS`. -/
theorem test_other_opcode_map :
    onNext (stepUnder { Config.spec with
        opcodeMap := fun o => if o = .ldm then 0x02 else if o = .ldr then 0x01 else Decisions.opcodeMap o,
        marBits := 8 } (small 0 0 0 0b0000 [(0, 0x0107)])) (fun t => (t.ix, t.acc, t.mar)) = some (7, 0, 0x0007) := by
  decide
/-- R7, R40: another `RESET_*` value of the cells, which also stands where an image does not reach. -/
theorem test_other_reset_cell (a : Byte) :
    (State.resetUnder { Config.spec with
      resetValues := { Decisions.resetValues with cell := 0x1100 } }).mem.cellAt a = 0x1100 :=
  Memory.cellAt_filled _ a
theorem test_image_over_reset_cell :
    (imageMemory (Memory.filled 0x1100) 0 [0x0107]).cellAt 0 = 0x0107 ∧
    (imageMemory (Memory.filled 0x1100) 0 [0x0107]).cellAt 255 = 0x1100 := by
  simp only [imageMemory, Memory.cellAt_writeWord, Memory.cellAt_filled]
  decide
/-- R7: the assembler under another `REG_CODE` and another `MOV_TARGETS`. -/
theorem test_other_register_codes :
    Assembler.assembleLineUnder { Config.spec with regCode := fun r => if r = 0 then some .ix else none } []
      ["INC".toList, "IX".toList] = (.inc 0, []) ∧
    Assembler.assembleLineUnder { Config.spec with movTargets := [.ix] } [] ["MOV".toList, "ACC".toList]
      = (.mov 0, [.unrecognizedRegister]) := by decide
/-- R6, R140: no input is the code 0, and Z is cleared, not set; a host of 9 bits overflows. -/
theorem test_no_input :
    accSr ((small 0 9 0 0b0001 []).input (inputCode Config.spec none)) = (0, 0b0000) ∧
    accSr ((small 0 0 0 0b0000 []).input (inputCode { Config.spec with inputBits := 9 } (some 300))) = (44, 0b0110) := by
  decide

/-! ### The host's entry points -/

/-- H1. -/
theorem test_construct_default : construct {} = some State.reset := by decide
/-- H2. -/
theorem test_construct_out_of_range : construct { acc := some 256 } = none := by decide
/-- H3, H5. -/
theorem test_construct_sr :
    (construct { acc := some 0, sr := some "0101".toList }).map accSr = some (0, 0b0101) := by decide
/-- H4. -/
theorem test_construct_bad_sr :
    construct { sr := some "01012".toList } = none ∧ construct { sr := some "2000".toList } = none := by decide
/-- H6. -/
theorem test_runCode_on_cleared_memory :
    (match runCodeFromZero 5 State.reset with
      | .ended r t => some (r, t.pc)
      | _ => none) = some (.success, 1) := by decide
/-- H7. -/
theorem test_loadMemory :
    (loadMemory [0x01C8] (small 0 7 0 0b0000 [(0, 0xFFFF), (1, 0xFFFF), (255, 0xFFFF)])).map
      (fun t => (t.mem.cellAt 0, t.mem.cellAt 1, t.mem.cellAt 255, t.acc)) = some (0x01C8, 0, 0, 7) := by decide
theorem test_slice :
    getMemorySlice (some 1) (some 3) (small 0 0 0 0b0000 [(1, 0x0101), (2, 0x0202)]) = some [0x0101, 0x0202] ∧
    getMemorySlice (some 0) (some 257) State.reset = none := by decide
/-- The memory stays canonical: writing the fill value removes the entry (log 25). -/
theorem test_write_fill_removes :
    ((Memory.clear.writeWord 9 0x0163).writeWord 9 0x0000) = Memory.clear := by decide

/-! ### The assembler (T1 to T17) -/

open Assembler in
/-- The first cell and the complaints of a source text. -/
def assembled (source : String) : Option Word × List Complaint :=
  ((translate source.toList).image.head?, (translate source.toList).diagnostics.map Diagnostic.complaint)

theorem test_asm_literals :
    assembled "LDM #200" = (some 0x01C8, []) ∧ assembled "LDM B11001000" = (some 0x01C8, []) ∧
    assembled "LDM &C8" = (some 0x01C8, []) := by decide
theorem test_asm_out_of_range : assembled "LDM #256" = (none, [.operandOutOfRange]) := by decide
theorem test_asm_wrong_shape : assembled "LDM 200" = (none, [.malformedInstruction]) := by decide
/-- R99: wrong shape makes the placeholder, an out-of-range number keeps the opcode (log 36). -/
theorem test_asm_placeholder :
    (Assembler.assembleLine [] ["LDM".toList, "200".toList]).1 = .err 0 ∧
    (Assembler.assembleLine [] ["JMP".toList, "#5".toList]).1 = .err 0 ∧
    (Assembler.assembleLine [] ["LDM".toList, "#256".toList]).1 = .ldm 0 := by decide
theorem test_asm_address_or_number :
    assembled "ADD #100" = (some 0x0964, []) ∧ assembled "ADD 100" = (some 0x0864, []) := by decide
theorem test_asm_literal_beats_label :
    assembled "ADD B1\nB1: END" = (some 0x0901, []) ∧
    assembled "ADD B100000000\nB100000000: END" = (some 0x0801, []) := by decide
theorem test_asm_label : assembled "loop: JMP loop" = (some 0x1100, []) := by decide
theorem test_asm_undefined_label : assembled "JMP missing" = (none, [.undefinedLabel "missing".toList]) := by decide
theorem test_asm_data_line :
    (Assembler.translate "END\nEND\n\n// note\nEND\nx: #5".toList).image[3]? = some 0x0005 ∧
    (Assembler.translate "END\nEND\nEND\nx: #5".toList).labels = [⟨"x".toList, 3⟩] := by decide
theorem test_asm_registers :
    assembled "MOV IX" = (some 0x0701, []) ∧ assembled "INC ACC" = (some 0x0C00, []) ∧
    assembled "MOV PC" = (none, [.unrecognizedRegister]) := by decide
theorem test_asm_comment : assembled "  LDM #1   // set up" = (some 0x0101, []) := by decide
theorem test_asm_too_many_tokens : assembled "a: LDM #1 extra" = (none, [.tooManyTokens]) := by decide
theorem test_asm_unknown : assembled "FOO #1" = (none, [.unrecognizedOpcode]) := by decide
theorem test_asm_collision : assembled "ACC: END" = (none, [.labelCollision "ACC".toList]) := by decide
theorem test_asm_duplicate : assembled "a: END\na: END" = (none, [.duplicateLabel "a".toList]) := by decide
theorem test_disassemble :
    Assembler.disassemble 0x0964 = some ["ADD".toList, "#100".toList] ∧
    Assembler.disassemble 0x0701 = some ["MOV".toList, "IX".toList] ∧
    Assembler.disassemble 0x1E00 = none := by decide

/-! ### Witnesses: the hypotheses of each statement are met -/

theorem test_witness_DecodeOfEncodeForEveryInjectiveOpcodeMap : Function.Injective Config.spec.opcodeMap := by
  intro a b h
  cases a <;> cases b <;> first | rfl | exact absurd h (by decide)

theorem test_witness_EncodeOfDecodeForEveryOpcodeMap :
    decodeWith Config.spec.opcodeMap 0x06FF = .instr (.sto 255) := by decide

theorem test_witness_WellFormedCompletesIllFormedFaults :
    (Instr.mov 1).wellFormed = true ∧ (Instr.mov 2).wellFormed = false := by decide

theorem test_witness_NoneShapeOperandIsIgnored :
    opcodeField 0x1400 = opcodeField 0x14AB ∧ opcodeField 0x1400 ∈ [(0x00 : Byte), 0x14, 0x15, 0xFE] := by decide

theorem test_witness_EveryStepKeepsInvariant :
    ∃ s t : State, s.Inv ∧ s.pc = 255 ∧ step s = .next t :=
  ⟨small 255 9 0 0b0000 [(255, 0x06FF)], _, by decide, rfl, rfl⟩

theorem test_witness_StepRunsTheDecodedInstruction :
    ∃ s : State, s.pc.toNat < 256 ∧ decode (s.mem.cellAt (s.pc.setWidth 8)) = .instr (.jmp 0) :=
  ⟨small 255 0 0 0b0000 [(255, 0x1100)], by decide, by decide⟩

/-- One state for each clause, at the ends of the ranges. -/
theorem test_witness_StepFaultsExactlyAsListed :
    (∃ r, faultOf (step (small 256 0 0 0 [])) = some r) ∧
    (∃ r, faultOf (step (small 0 0 0 0 [(0, 0x1E00)])) = some r) ∧
    (∃ r, faultOf (step (small 255 0 0 0 [(255, 0xFDFF)])) = some r) ∧
    (∃ r, faultOf (step (small 0 0 0 0 [(0, 0x0702)])) = some r) ∧
    (∃ r, faultOf (step (small 255 0 0 0 [(255, 0x0DFF)])) = some r) ∧
    faultOf (step (small 255 0 0 0 [(255, 0x0D01)])) = none ∧
    faultOf (step (small 0 0 0 0 [(0, 0x1D00)])) = none ∧
    faultOf (step (small 0 0 0 0 [(0, 0xFEFF)])) = none :=
  ⟨⟨_, rfl⟩, ⟨_, rfl⟩, ⟨_, rfl⟩, ⟨_, rfl⟩, ⟨_, rfl⟩, by decide, by decide, by decide⟩

theorem test_witness_FaultLeavesOnlyTheFetchWrites :
    (∃ r, step (small 256 0 0 0 []) = .fault r) ∧ (∃ r, step (small 255 0 0 0 [(255, 0x1E00)]) = .fault r) ∧
    ∃ r, step (small 0 0 0 0 [(0, 0x0C02)]) = .fault r := ⟨⟨_, rfl⟩, ⟨_, rfl⟩, ⟨_, rfl⟩⟩

/-- A jump, a jump not taken at the top of memory, both dispatch faults, and END. -/
theorem test_witness_PcAdvancesByOneOrJumps :
    (∃ t, decode (small 255 0 0 0 [(255, 0x11FF)]).nextCell = .instr (.jmp 255) ∧
      step (small 255 0 0 0 [(255, 0x11FF)]) = .next t) ∧
    (∃ t, decode (small 255 0 0 0 [(255, 0x1200)]).nextCell = .instr (.jpe 0) ∧
      step (small 255 0 0 0 [(255, 0x1200)]) = .next t) ∧
    (∃ t, decode (small 255 0 0 1 [(255, 0x1300)]).nextCell = .instr (.jpn 0) ∧
      step (small 255 0 0 1 [(255, 0x1300)]) = .next t) ∧
    (∃ l, step (small 255 0 0 0 [(255, 0x1E00)]) = .fault (.unrecognizedOpcode l)) ∧
    (∃ l, step (small 255 0 0 0 [(255, 0x0702)]) = .fault (.unrecognizedRegister l)) ∧
    ∃ t, step State.reset = .next t ∧ decode State.reset.nextCell = .instr (.endRun 0) :=
  ⟨⟨_, by decide, rfl⟩, ⟨_, by decide, rfl⟩, ⟨_, by decide, rfl⟩, ⟨_, rfl⟩, ⟨_, rfl⟩, ⟨_, rfl, by decide⟩⟩

theorem test_witness_FetchRegistersHoldTheFetchedCell : ∃ t, step (small 9 0 0 0 [(9, 0x030A)]) = .next t :=
  ⟨_, rfl⟩

theorem test_witness_EndSignalComesFromEndErrAndBrkOnly :
    (∃ t, decode (small 0 0 0 0 [(0, 0xFFFF)]).nextCell = .instr (.err 255) ∧
      step (small 0 0 0 0 [(0, 0xFFFF)]) = .next t) ∧
    (∃ t, decode (small 0 0 0 0 [(0, 0xFE00)]).nextCell = .instr (.brk 0) ∧
      step (small 0 0 0 0 [(0, 0xFE00)]) = .next t) ∧
    ∃ t, decode (small 0 0 0 0 [(0, 0x0100)]).nextCell = .instr (.ldm 0) ∧
      step (small 0 0 0 0 [(0, 0x0100)]) = .next t := ⟨⟨_, by decide, rfl⟩, ⟨_, by decide, rfl⟩, ⟨_, by decide, rfl⟩⟩

theorem test_witness_StepAppendsTheEventsOfItsInstruction :
    (∃ t, decode (small 0 0 0 0 [(0, 0x1500)]).nextCell = .instr (.outp 0) ∧
      step (small 0 0 0 0 [(0, 0x1500)]) = .next t) ∧
    (∃ t, decode (small 0 0 0 0 [(0, 0x1400)]).nextCell = .instr (.inp 0) ∧
      step (small 0 0 0 0 [(0, 0x1400)]) = .next t) ∧
    (∃ t, decode (small 0 0 0 0 [(0, 0xFF03)]).nextCell = .instr (.err 3) ∧
      step (small 0 0 0 0 [(0, 0xFF03)]) = .next t) ∧
    (∃ t, decode (small 255 0 0 0 [(255, 0xFEFF)]).nextCell = .instr (.brk 255) ∧
      step (small 255 0 0 0 [(255, 0xFEFF)]) = .next t) ∧
    ∃ t, decode State.reset.nextCell = .instr (.endRun 0) ∧ step State.reset = .next t :=
  ⟨⟨_, by decide, rfl⟩, ⟨_, by decide, rfl⟩, ⟨_, by decide, rfl⟩, ⟨_, by decide, rfl⟩, ⟨_, by decide, rfl⟩⟩

theorem test_witness_NoStepChangesAnOpcodeHalf :
    ∃ t, step (small 0 9 0 0 [(0, 0x0600), (255, 0xFFFF)]) = .next t ∧ (0 : Byte) ≠ 255 := ⟨_, rfl, by decide⟩

theorem test_witness_OnlyStoWritesMemory :
    (∃ t, exec (.sto 255) State.reset = .next t) ∧ (∀ a : Byte, Instr.sto 255 = .sto a → (254 : Byte) ≠ a) ∧
    ∃ t, exec (.inp 0) State.reset = .next t :=
  ⟨⟨_, rfl⟩, fun a h => by cases h; decide, ⟨_, rfl⟩⟩

/-- Each of the three compares sets Z. -/
theorem test_witness_OnlyACompareSetsZero :
    (∃ t, step (small 0 0 0 0 [(0, 0x0E09)]) = .next t ∧ (small 0 0 0 0 [(0, 0x0E09)]).sr.z = false ∧
      t.sr.z = true) ∧
    (∃ t, step (small 0 255 0 0 [(0, 0x0FFF)]) = .next t ∧ (small 0 255 0 0 [(0, 0x0FFF)]).sr.z = false ∧
      t.sr.z = true) ∧
    ∃ t, step (small 0 9 0 0 [(0, 0x1014), (20, 0x001E), (30, 9)]) = .next t ∧
      (small 0 9 0 0 [(0, 0x1014), (20, 0x001E), (30, 9)]).sr.z = false ∧ t.sr.z = true :=
  ⟨⟨_, rfl, by decide⟩, ⟨_, rfl, by decide⟩, ⟨_, rfl, by decide⟩⟩

theorem test_witness_OverflowFlagIsSticky :
    ∃ t, step (small 0 0 0 0b0100 [(0, 0x0901)]) = .next t ∧ (small 0 0 0 0b0100 [(0, 0x0901)]).sr.v = true :=
  ⟨_, rfl, by decide⟩

/-- An overflow (sum 256) that changes C, and an underflow (-1) that changes N. -/
theorem test_witness_CarryAndNegativeChangeOnlyOutOfRange :
    (∃ t, step (small 0 255 0 0 [(0, 0x0901)]) = .next t ∧ t.sr.c ≠ (small 0 255 0 0 [(0, 0x0901)]).sr.c) ∧
    ∃ t, step (small 0 0 0 0 [(0, 0x0B01)]) = .next t ∧ t.sr.n ≠ (small 0 0 0 0 [(0, 0x0B01)]).sr.n :=
  ⟨⟨_, rfl, by decide⟩, ⟨_, rfl, by decide⟩⟩

theorem test_witness_NothingReadsCarryOverflowNegativeOrMar :
    ∃ t, agreeOnWhatIsRead (small 0 7 0 0b0001 [(0, 0x1207)]) { small 0 7 0 0b1111 [(0, 0x1207)] with mar := 5 } ∧
      (∀ n, decode (small 0 7 0 0b0001 [(0, 0x1207)]).nextCell ≠ .instr (.brk n)) ∧
      step (small 0 7 0 0b0001 [(0, 0x1207)]) = .next t :=
  have hd : decode (small 0 7 0 0b0001 [(0, 0x1207)]).nextCell = .instr (.jpe 7) := by decide
  ⟨_, ⟨rfl, rfl⟩, fun n h => Decoded.noConfusion (hd.symm.trans h) fun k => Instr.noConfusion k, rfl⟩

theorem test_witness_StoToItsOwnCellKeepsTheFetchedWord :
    (small 255 0 0 0 [(255, 0x06FF)]).pc.toNat < 256 ∧
    decode (small 255 0 0 0 [(255, 0x06FF)]).nextCell
      = .instr (.sto ((small 255 0 0 0 [(255, 0x06FF)]).pc.setWidth 8)) := by decide

theorem test_witness_StoreIsSeenByTheNextFetch :
    (small 254 0 0 0 [(254, 0x06FF), (255, 0x1900)]).pc.toNat < 255 ∧
    (255 : Byte).toNat = (small 254 0 0 0 [(254, 0x06FF), (255, 0x1900)]).pc.toNat + 1 ∧
    decode (small 254 0 0 0 [(254, 0x06FF), (255, 0x1900)]).nextCell = .instr (.sto 255) ∧
    (small 254 0 0 0 [(254, 0x06FF), (255, 0x1900)]).mem.opcodeAt 255 = 0x19 := by decide

theorem test_witness_StoreResult : (39 : Byte) ≠ 40 := by decide

/-- The first register code that names nothing, and the last one that names a register. -/
theorem test_witness_MoveResults : 2 ≤ (2 : Byte).toNat ∧ ¬ 2 ≤ (1 : Byte).toNat := by decide

theorem test_witness_IncrementAndDecrementResults : 2 ≤ (255 : Byte).toNat := by decide

theorem test_witness_CompareImmediateResult :
    (small 0 255 0 0 []).acc = 255 ∧ (small 0 255 0 0 []).acc ≠ 254 := by decide

theorem test_witness_ConditionalJumpResults :
    (small 0 0 0 0b0001 []).sr.z = true ∧ (small 0 0 0 0b1110 []).sr.z = false := by decide

theorem test_witness_ShiftLeftResult : 8 ≤ (8 : Byte).toNat ∧ (small 0 1 0 0 []).acc ≠ 0 := by decide

theorem test_witness_ShiftRightResult : 8 ≤ (8 : Byte).toNat ∧ ¬ 8 ≤ (7 : Byte).toNat := by decide

/-- Either answer of the hook meets one of the two clauses: the answer is a free value. -/
theorem test_witness_EndAndBreakResults (k : Nat) :
    Config.breakAnswer k = .endRun ∨ Config.breakAnswer k = .goOn := by
  cases Config.breakAnswer k
  · exact .inr rfl
  · exact .inl rfl

theorem test_witness_ErrorReportResult :
    (0 : Byte).toNat = 0 ∧ (1 : Byte).toNat = 1 ∧ (2 : Byte).toNat = 2 ∧ 3 ≤ (3 : Byte).toNat ∧
    3 ≤ (255 : Byte).toNat := by decide

theorem test_witness_AccumulatorInstructionsFrame :
    ∃ t, (Instr.ldx 255).writesAccOnly = true ∧ exec (.ldx 255) State.reset = .next t ∧
      (Instr.ldx 255).alwaysInRange = true := ⟨_, rfl, rfl, rfl⟩

theorem test_witness_CompareAndJumpFrame :
    (∃ t, exec (.cmi 255) State.reset = .next t ∧ (Instr.cmi 255).isCompare = true) ∧
    ∃ t, exec (.jpn 255) State.reset = .next t ∧ (Instr.jpn 255).isJump = true := ⟨⟨_, rfl, rfl⟩, ⟨_, rfl, rfl⟩⟩

theorem test_witness_RegisterInstructionsFrame :
    (∃ t, exec (.ldr 255) State.reset = .next t) ∧
    (∃ t, (Instr.inc 0).takesRegister = true ∧ exec (.inc 0) State.reset = .next t) ∧
    ∃ t, (Instr.dec 1).takesRegister = true ∧ exec (.dec 1) State.reset = .next t :=
  ⟨⟨_, rfl⟩, ⟨_, rfl, rfl⟩, ⟨_, rfl, rfl⟩⟩

theorem test_witness_StoreFrame : (∃ t, exec (.sto 255) State.reset = .next t) ∧ (0 : Byte) ≠ 255 :=
  ⟨⟨_, rfl⟩, by decide⟩

theorem test_witness_HostInstructionsFrame :
    (∃ t, (Instr.inp 0).reportsToHost = true ∧ exec (.inp 0) State.reset = .next t) ∧
    ∃ t, (Instr.brk 0).reportsToHost = true ∧ exec (.brk 0) State.reset = .next t ∧
      ∀ n, Instr.brk 0 ≠ .inp n := ⟨⟨_, rfl, rfl⟩, ⟨_, rfl, rfl, fun n h => by cases h⟩⟩

theorem test_witness_IncDecReadingsDifferOnlyInFlagsAtAWrap : (254 : Byte) ≠ 255 ∧ (1 : Byte) ≠ 0 := by decide

/-- The longest image, the largest cell, and the first of each that is refused. -/
theorem test_witness_LoadMemoryWritesEveryCell :
    ((List.replicate 256 65535).length ≤ 256 ∧ ∀ w ∈ List.replicate 256 65535, w ≤ 65535) ∧
    256 < (List.replicate 257 0).length ∧ ∃ w ∈ [65536], 65535 < w :=
  ⟨⟨List.length_replicate.le, fun _ h => (List.eq_of_mem_replicate h).le⟩,
    by rw [List.length_replicate]; decide, 65536, List.mem_singleton_self _, by decide⟩

/-- The ends of the ranges, and one argument of each kind past them. -/
theorem test_witness_ConstructionStoresItsArguments :
    ({ memory := some [65535], pc := some 255, sr := some "1001".toList } : ConstructArgs).inRange ∧
    ¬ ({ acc := some 256 } : ConstructArgs).inRange ∧
    ¬ ({ memory := some [65536] } : ConstructArgs).inRange := by
  refine ⟨⟨fun v h => ?_, fun _ h => ⟨{ z := true, c := false, v := false, n := true }, ?_⟩, fun _ h => ?_⟩,
    fun h => absurd (h.1 256 (.inr (.inl rfl))) (by decide), fun h => absurd (h.2.2 _ rfl).2 (by decide)⟩
  · rcases h with h | h | h <;> cases h; decide
  · cases h; decide
  · cases h; decide

theorem test_witness_ClearedMemoryReadsZero : 255 < 256 ∧ 256 ≤ 256 := by decide

/-- Each of the three outcomes of a run occurs. -/
theorem test_witness_RunCodeIsSingleStepsUntilEnd :
    (∃ t, runCode 1 255 State.reset = .ended .success t) ∧
    (∃ r, runCode 1 0 (small 0 0 0 0 [(0, 0x1E00)]) = .faulted r) ∧
    ∃ t, runCode 2 0 (small 0 0 0 0 [(0, 0x1100)]) = .outOfBudget t := ⟨⟨_, rfl⟩, ⟨_, rfl⟩, ⟨_, rfl⟩⟩

theorem test_witness_LargerBudgetGivesTheSameRun :
    1 ≤ 2 ∧ ∃ t, runCode 1 255 State.reset = .ended .success t ∧
      ∀ u, RunResult.ended .success t ≠ .outOfBudget u :=
  ⟨by decide, _, rfl, fun u h => by cases h⟩

theorem test_witness_AnyDiagnosticEmptiesTheImage :
    (Assembler.translate "END".toList).diagnostics = [] ∧
    (Assembler.translate "FOO".toList).diagnostics ≠ [] := by decide

theorem test_witness_PrintedInstructionAssemblesBack :
    (Instr.dec 1).wellFormed = true ∧ (Instr.endRun 0).operand = 0 ∧
    (Assembler.shapeOf (Instr.dec 1).opcode ≠ .none) := by decide

end Sys2Proof.Tests
end

/-!
PROOFS. The frames of the instructions (spec 00_scope.md R11) and the residue of R9. Each group of
instructions that shares its writes has one lemma that says through which shared operation it writes
(`exec_of_…`); its frame is then the frame of that operation.
-/

namespace Sys2Proof.Machine

/-! ### Normalisation (R9) -/

/-- The byte congruent to `value` modulo 256 is unique (R9). -/
theorem modEq_iff_eq_normalise (r : Byte) (value : Int) :
    (r.toNat : Int) ≡ value [ZMOD 256] ↔ r = normalise value := by
  have residue := normalise_toNat value
  rw [Int.ModEq, BitVec.toNat_inj.symm]
  omega

/-- Settles O8: each of the two readings of `mod` gives the remainder of `normalise_toNat`. -/
theorem normIsTheUniqueByteResidue : Obligations.NormIsTheUniqueByteResidue := by
  intro v
  refine ⟨?_, ?_, fun r => modEq_iff_eq_normalise r v⟩
  · have bound := Int.lt_tmod_of_pos v (show (0 : Int) < 256 by decide)
    have division := Int.tmod_add_mul_tdiv v 256
    rw [normalise_toNat, Int.tmod_eq_emod_of_nonneg (by omega)]
    omega
  · rw [normalise_toNat, Int.fmod_eq_emod_of_nonneg _ (by decide),
      Int.fmod_eq_emod_of_nonneg _ (by decide), Int.add_emod_right, Int.emod_emod]

/-! ### Cells -/

/-- States with the same memory have the same cells. -/
theorem sameCells_of_mem_eq {s t : State} (h : t.mem = s.mem) : sameCells s t :=
  fun _ => by simp [h]

/-! ### Instructions that write ACC alone (R110, R112 to R114, R120 to R123, R150 to R158) -/

theorem State.bitAnd_byte (s : State) (b : Byte) : s.bitAnd b.toNat = s.accWrite (s.acc &&& b).toNat := by
  rw [BitVec.toNat_and]; rfl

theorem State.bitOr_byte (s : State) (b : Byte) : s.bitOr b.toNat = s.accWrite (s.acc ||| b).toNat := by
  rw [BitVec.toNat_or]; rfl

theorem State.bitXor_byte (s : State) (b : Byte) : s.bitXor b.toNat = s.accWrite (s.acc ^^^ b).toNat := by
  rw [BitVec.toNat_xor]; rfl

/-- LSR hands the accumulator the byte shifted right (R157). -/
theorem exec_lsr (n : Byte) (s : State) :
    exec (.lsr n) s = .next (s.accWrite (s.acc >>> n.toNat).toNat) := by
  rw [BitVec.toNat_ushiftRight, Nat.shiftRight_eq_div_pow]; rfl

/-- Loads, bitwise operations and the right shift hand the accumulator a byte. -/
theorem exec_of_alwaysInRange {i : Instr} (h : i.alwaysInRange = true) (s : State) :
    ∃ b : Byte, exec i s = .next (s.accWrite b.toNat) := by
  cases i with
  | ldm n => exact ⟨n, rfl⟩
  | ldd a => exact ⟨s.mem.operandAt a, rfl⟩
  | ldi a => exact ⟨s.mem.operandAt (s.mem.operandAt a), rfl⟩
  | ldx a => exact ⟨s.mem.operandAt (s.indexedAddress a), rfl⟩
  | anda a => exact ⟨_, congrArg _ (s.bitAnd_byte (s.mem.operandAt a))⟩
  | andn n => exact ⟨_, congrArg _ (s.bitAnd_byte n)⟩
  | ora a => exact ⟨_, congrArg _ (s.bitOr_byte (s.mem.operandAt a))⟩
  | orn n => exact ⟨_, congrArg _ (s.bitOr_byte n)⟩
  | xora a => exact ⟨_, congrArg _ (s.bitXor_byte (s.mem.operandAt a))⟩
  | xorn n => exact ⟨_, congrArg _ (s.bitXor_byte n)⟩
  | lsr n => exact ⟨_, exec_lsr n s⟩
  | _ => cases h

/-- All the instructions that write ACC alone do it by one accumulator write (R33). -/
theorem exec_of_writesAccOnly {i : Instr} (h : i.writesAccOnly = true) (s : State) :
    ∃ value : Int, exec i s = .next (s.accWrite value) := by
  cases i with
  | ldm n | ldd n | ldi n | ldx n | adda n | addn n | suba n | subn n | anda n | andn n | ora n
  | orn n | xora n | xorn n | lsl n | lsr n => exact ⟨_, rfl⟩
  | _ => cases h

/-- Settles O46: the frame of one accumulator write; of a byte it clears Z and keeps C, V and N. -/
theorem accumulatorInstructionsFrame : Obligations.AccumulatorInstructionsFrame := by
  intro i s t hi h
  obtain ⟨value, hv⟩ := exec_of_writesAccOnly hi s
  cases hv.symm.trans h
  refine ⟨rfl, rfl, rfl, rfl, rfl, rfl, rfl, rfl, sameCells_of_mem_eq rfl, fun inRange => ?_⟩
  obtain ⟨b, hb⟩ := exec_of_alwaysInRange inRange s
  have same : s.accWrite value = s.accWrite b.toNat := Host.Outcome.next.inj (hv.symm.trans hb)
  rw [same, State.accWrite_byte]
  exact ⟨rfl, rfl, rfl, rfl⟩

/-! ### Compares and jumps (R130 to R136) -/

theorem exec_of_isCompare {i : Instr} (h : i.isCompare = true) (s : State) :
    ∃ value : Nat, exec i s = .next (s.compare value) := by
  cases i with
  | cmpa a | cmpn a | cmi a => exact ⟨_, rfl⟩
  | _ => cases h

theorem exec_of_isJump {i : Instr} (h : i.isJump = true) (s : State) :
    ∃ taken : Bool, exec i s = .next (s.jumpIf taken i.operand) := by
  cases i with
  | jmp a => exact ⟨true, rfl⟩
  | jpe a | jpn a => exact ⟨_, rfl⟩
  | _ => cases h

/-- A jump changes PC alone, taken or not. -/
theorem State.jumpIf_frame (taken : Bool) (target : Byte) (s : State) :
    s.jumpIf taken target = { s with pc := (s.jumpIf taken target).pc } := by
  cases taken <;> rfl

/-- Settles O47: the frames of `State.compare` and `State.jumpIf`. -/
theorem compareAndJumpFrame : Obligations.CompareAndJumpFrame := by
  refine fun i s t h => ⟨fun hi => ?_, fun hi => ?_⟩
  · obtain ⟨value, hv⟩ := exec_of_isCompare hi s
    cases hv.symm.trans h
    exact ⟨rfl, sameCells_of_mem_eq rfl⟩
  · obtain ⟨taken, ht⟩ := exec_of_isJump hi s
    cases ht.symm.trans h
    have frame := s.jumpIf_frame taken i.operand
    exact ⟨frame, sameCells_of_mem_eq (by rw [frame])⟩

/-! ### Register instructions (R111, R116, R124, R125) -/

/-- At the default parameters INC hands over the next byte, 0 after 255 (R124, decision D9). -/
theorem incremented_inRange (x : Byte) : incremented .inRange x = ((x + 1).toNat : Int) := by
  have next : (x + 1).toNat = (x.toNat + 1) % 256 := BitVec.toNat_add x 1
  simp only [incremented]
  split <;> omega

/-- At the default parameters DEC hands over the previous byte, 255 before 0 (R125, decision D9). -/
theorem decremented_inRange (x : Byte) : decremented .inRange x = ((x - 1).toNat : Int) := by
  have previous : (x - 1).toNat = (255 + x.toNat) % 256 := BitVec.toNat_sub x 1
  simp only [decremented]
  split <;> omega

/-- MOV, INC and DEC hand a byte to the register their operand names, if it names one. -/
theorem exec_of_takesRegister {i : Instr} (h : i.takesRegister = true) (s : State) :
    ∃ byte : RegName → Byte, exec i s =
      withRegister Config.spec [.acc, .ix] i.operand s fun x => s.writeReg x (byte x).toNat := by
  cases i with
  | mov r => exact ⟨fun _ => s.acc, rfl⟩
  | inc r => exact ⟨fun x => s.readReg x + 1, by simp only [← incremented_inRange]; rfl⟩
  | dec r => exact ⟨fun x => s.readReg x - 1, by simp only [← decremented_inRange]; rfl⟩
  | _ => cases h

/-- Settles O48: by the register the operand names, the frame of an accumulator write of a byte or of a
write of IX. -/
theorem registerInstructionsFrame : Obligations.RegisterInstructionsFrame := by
  refine ⟨fun n s t h => ?_, fun i s t hi h => ?_⟩
  · cases h
    exact ⟨rfl, sameCells_of_mem_eq rfl⟩
  · obtain ⟨byte, hb⟩ := exec_of_takesRegister hi s
    rw [hb] at h
    rcases withRegister_cases i.operand s fun x => s.writeReg x (byte x).toNat with
      ⟨hr, hw⟩ | ⟨hr, hw⟩ | ⟨-, hw⟩
    · cases hw.symm.trans h
      refine ⟨sameCells_of_mem_eq rfl, .inl ⟨hr, ?_⟩⟩
      rw [State.writeReg_acc, State.accWrite_byte]
    · cases hw.symm.trans h
      exact ⟨sameCells_of_mem_eq rfl, .inr ⟨hr, rfl⟩⟩
    · cases hw.symm.trans h

/-! ### STO (R54, R115) -/

/-- Settles O49: the store primitive keeps every half but the operand half of the cell it writes. -/
theorem storeFrame : Obligations.StoreFrame := by
  intro a s t h
  cases h
  refine ⟨rfl, rfl, fun b hb => ⟨rfl, ?_⟩⟩
  rw [State.store_mem, Memory.operandAt_writeOperand, if_neg hb]

/-! ### Host instructions (R140, R143, R160, R161, R164) -/

/-- IN writes ACC and clears Z, every code of the channel being a byte (R140, decision D16). -/
theorem exec_inp (ignored : Byte) (s : State) :
    ∃ code : Nat, exec (.inp ignored) s =
      .next { s.takeInput code with acc := BitVec.ofNat 8 code, sr := { s.sr with z := false } } := by
  have inRange := inputCode_lt (Config.inputAnswer s.draws)
  exact ⟨_, congrArg _ (State.accWrite_inRange (Nat.le_of_lt_succ inRange) _)⟩

/-- OUT, END, BRK and ERR change nothing but what the host is told. -/
theorem exec_of_reportsToHost {i : Instr} (h : i.reportsToHost = true) (notIn : ∀ n, i ≠ .inp n)
    (s : State) : ∃ trace draws ended,
      exec i s = .next { s with trace := trace, draws := draws, ended := ended } := by
  cases i with
  | inp n => exact absurd rfl (notIn n)
  | outp n | endRun n | brk n | err n => exact ⟨_, _, _, rfl⟩
  | _ => cases h

/-- Settles O50: IN by its own result, the others by what they tell the host. -/
theorem hostInstructionsFrame : Obligations.HostInstructionsFrame := by
  intro i s t hi h
  by_cases isIn : ∃ n, i = .inp n
  · obtain ⟨n, rfl⟩ := isIn
    obtain ⟨code, hc⟩ := exec_inp n s
    cases hc.symm.trans h
    exact ⟨rfl, rfl, rfl, rfl, rfl, sameCells_of_mem_eq rfl, rfl, rfl, rfl,
      fun notIn => absurd rfl (notIn n)⟩
  · obtain ⟨trace, draws, ended, he⟩ := exec_of_reportsToHost hi (not_exists.1 isIn) s
    cases he.symm.trans h
    exact ⟨rfl, rfl, rfl, rfl, rfl, sameCells_of_mem_eq rfl, rfl, rfl, rfl, fun _ => ⟨rfl, rfl⟩⟩

end Sys2Proof.Machine

/-!
PROOFS. The state (spec 10_state.md): what a completed instruction can do to each register, flag, cell and
channel. `Effect` says once through which shared operation an instruction writes; the invariants of a step
are case analyses of it.
-/

namespace Sys2Proof.Machine

/-! ### What a completed instruction can do -/

/-- What executing `i` in `s` can make of `s`: the one shared operation through which `i` writes. -/
inductive Effect (i : Instr) (s : State) : State → Prop where
  /-- Loads, arithmetic, logic and shifts (R33). -/
  | accWrite (value : Int) (h : i.writesAccOnly = true) : Effect i s (s.accWrite value)
  /-- MOV, INC and DEC on ACC (R116, R124, R125). -/
  | accByte (b : Byte) (h : i.takesRegister = true) : Effect i s (s.accWrite b.toNat)
  /-- LDR, and MOV, INC and DEC on IX (R111, R34). -/
  | ixWrite (value : Int) : Effect i s (s.ixWrite value)
  /-- CMPA, CMPN and CMI (R130 to R132). -/
  | compare (value : Nat) (h : i.isCompare = true) : Effect i s (s.compare value)
  /-- A jump taken (R133 to R135). -/
  | jump (h : i.isJump = true) : Effect i s (s.jumpTo i.operand)
  /-- A jump not taken (R134, R135). -/
  | noJump (h : i.isJump = true) : Effect i s s
  /-- STO (R115). -/
  | store (a : Byte) : Effect i s (s.store a s.acc)
  /-- IN (R140). -/
  | input (code : Nat) (inRange : code ≤ 255) (h : i.reportsToHost = true) : Effect i s (s.input code)
  /-- OUT, END, BRK and ERR (R143, R160, R161, R164). -/
  | report (trace : List Event) (draws : Nat) (ended : Option EndReason) (h : i.reportsToHost = true) :
      Effect i s { s with trace := trace, draws := draws, ended := ended }

/-- A register operand is looked up without the state: if it completes in one state, it does in all. -/
theorem withRegister_next {r : Byte} {s t : State} {k : RegName → State}
    (h : withRegister Config.spec [.acc, .ix] r s k = .next t) :
    ∃ x, t = k x ∧ ∀ s' k', withRegister Config.spec [.acc, .ix] r s' k' = .next (k' x) := by
  rcases withRegister_cases r s k with ⟨rfl, hw⟩ | ⟨rfl, hw⟩ | ⟨-, hw⟩
  · cases hw.symm.trans h
    exact ⟨.acc, rfl, fun _ _ => rfl⟩
  · cases hw.symm.trans h
    exact ⟨.ix, rfl, fun _ _ => rfl⟩
  · cases hw.symm.trans h

/-- A register instruction that completes writes a byte to ACC or to IX. -/
theorem effect_of_takesRegister {i : Instr} {s t : State} (hi : i.takesRegister = true)
    (h : exec i s = .next t) : Effect i s t := by
  obtain ⟨byte, hb⟩ := exec_of_takesRegister hi s
  rw [hb] at h
  obtain ⟨x, rfl, -⟩ := withRegister_next h
  cases x with
  | acc => exact .accByte _ hi
  | ix => exact .ixWrite _

/-- Every instruction that completes has one of the effects. -/
theorem exec_effect {i : Instr} {s t : State} (h : exec i s = .next t) : Effect i s t := by
  cases i with
  | mov r | inc r | dec r => exact effect_of_takesRegister rfl h
  | ldr n => cases h; exact .ixWrite _
  | sto a => cases h; exact .store a
  | cmpa a | cmpn a | cmi a => cases h; exact .compare _ rfl
  | jmp a => cases h; exact .jump rfl
  | jpe a | jpn a =>
    cases h
    unfold State.jumpIf
    split
    · exact .jump rfl
    · exact .noJump rfl
  | inp n => cases h; exact .input _ (Nat.le_of_lt_succ (inputCode_lt _)) rfl
  | endRun n | outp n | brk n | err n => cases h; exact .report _ _ _ rfl
  | _ => cases h; exact .accWrite _ rfl

/-- A step that answers a next state from a cell that decodes to `i` ran `i` on what the fetch left. -/
theorem exec_of_step {s t : State} {i : Instr} (hd : decode s.nextCell = .instr i)
    (h : step s = .next t) : s.pc.toNat < 256 ∧ exec i (s.fetched s.nextCell) = .next t := by
  obtain ⟨hpc, j, hj, hx⟩ := step_next_cases h
  cases hj.symm.trans hd
  exact ⟨hpc, hx⟩

/-! ### The invariant: PC (R24) and the memory (R36) -/

theorem State.jumpTo_pc_toNat (target : Byte) (s : State) : (s.jumpTo target).pc.toNat = target.toNat :=
  BitVec.toNat_setWidth_of_le (by decide)

theorem State.fetched_inv {s : State} (hpc : s.pc.toNat < 256) (h : s.Inv) :
    (s.fetched s.nextCell).Inv :=
  ⟨(State.fetched_pc_toNat _ hpc).trans_le hpc, h.2⟩

/-- Of all effects only a jump writes PC and only a store writes memory. -/
theorem exec_inv {i : Instr} {s t : State} (hs : s.Inv) (h : exec i s = .next t) : t.Inv := by
  obtain ⟨hpc, hmem⟩ := hs
  cases exec_effect h with
  | jump _ => exact ⟨(s.jumpTo_pc_toNat _).trans_le (byte_toNat_lt_memCells _).le, hmem⟩
  | store a => exact ⟨hpc, Memory.wf_writeOperand a s.acc hmem⟩
  | _ => exact ⟨hpc, hmem⟩

/-- Settles O11: the fetch moves PC from below 256 by one, and `exec_inv` does the rest. -/
theorem everyStepKeepsInvariant : Obligations.EveryStepKeepsInvariant := by
  intro s t hs h
  obtain ⟨hpc, i, -, hx⟩ := step_next_cases h
  exact exec_inv (State.fetched_inv hpc hs) hx

/-! ### The zero flag (R31, R33) -/

/-- Only a compare sets Z. -/
theorem exec_keeps_clear_z {i : Instr} {s t : State} (hi : i.isCompare = false)
    (h : exec i s = .next t) (hz : s.sr.z = false) : t.sr.z = false := by
  cases exec_effect h with
  | accWrite value _ => exact Flags.afterAccWrite_z value hz
  | accByte b _ => exact Flags.afterAccWrite_z _ hz
  | input code _ _ => exact Flags.afterAccWrite_z _ hz
  | compare value hc => exact nomatch hi.symm.trans hc
  | _ => exact hz

/-- A compare with a byte that leaves Z set found it in ACC (R130). -/
theorem State.acc_eq_of_compare_z {s : State} {b : Byte} (h : (s.compare b.toNat).sr.z = true) :
    s.acc = b :=
  BitVec.eq_of_toNat_eq (of_decide_eq_true h)

/-- Settles O22: `exec_keeps_clear_z` leaves the three compares, and each names what ACC equalled. -/
theorem onlyACompareSetsZero : Obligations.OnlyACompareSetsZero := by
  intro s t h hz ht
  obtain ⟨-, i, hd, hx⟩ := step_next_cases h
  by_cases hi : i.isCompare = true
  · cases i with
    | cmpa a => cases hx; exact .inl ⟨a, hd, State.acc_eq_of_compare_z ht⟩
    | cmpn n => cases hx; exact .inr (.inl ⟨n, hd, State.acc_eq_of_compare_z ht⟩)
    | cmi a => cases hx; exact .inr (.inr ⟨a, hd, State.acc_eq_of_compare_z ht⟩)
    | _ => cases hi
  · exact nomatch ht.symm.trans (exec_keeps_clear_z (Bool.eq_false_iff.2 hi) hx hz)

/-! ### The overflow flag (R31, R33) -/

/-- No instruction clears V. -/
theorem exec_keeps_set_v {i : Instr} {s t : State} (h : exec i s = .next t) (hv : s.sr.v = true) :
    t.sr.v = true := by
  cases exec_effect h with
  | accWrite value _ => exact Flags.afterAccWrite_v value hv
  | accByte b _ => exact Flags.afterAccWrite_v _ hv
  | input code _ _ => exact Flags.afterAccWrite_v _ hv
  | _ => exact hv

/-- Settles O23: the fetch keeps SR, and then `exec_keeps_set_v`. -/
theorem overflowFlagIsSticky : Obligations.OverflowFlagIsSticky := by
  intro s t h hv
  obtain ⟨-, i, -, hx⟩ := step_next_cases h
  exact exec_keeps_set_v hx hv

/-! ### The carry and negative flags (R31, R33) -/

/-- An accumulator write that changes C or N was out of range. -/
theorem Flags.afterAccWrite_cn_changed {value : Int} {f : Flags}
    (h : (f.afterAccWrite value).c ≠ f.c ∨ (f.afterAccWrite value).n ≠ f.n) :
    (255 < value ∧ f.afterAccWrite value = { f with n := false, v := true, c := true }) ∨
    (value < 0 ∧ f.afterAccWrite value = { f with n := true, v := true, c := false }) := by
  unfold Flags.afterAccWrite at *
  split at h
  · next high => exact .inl ⟨high, by rw [if_pos high]⟩
  · next low =>
    split at h
    · next neg => exact .inr ⟨neg, by rw [if_neg low, if_pos neg]⟩
    · simp at h

/-- Only ADDA, ADDN, SUBA, SUBN and LSL can leave the range of the accumulator. -/
theorem exec_keeps_cn {i : Instr} {s t : State}
    (hi : i.writesAccOnly = true → i.alwaysInRange = true) (h : exec i s = .next t) :
    t.sr.c = s.sr.c ∧ t.sr.n = s.sr.n := by
  cases exec_effect h with
  | accWrite value hw =>
    obtain ⟨b, hb⟩ := exec_of_alwaysInRange (hi hw) s
    rw [Host.Outcome.next.inj (h.symm.trans hb), State.accWrite_byte]
    exact ⟨rfl, rfl⟩
  | accByte b _ => rw [State.accWrite_byte]; exact ⟨rfl, rfl⟩
  | input code inRange _ => rw [State.input, State.accWrite_inRange inRange]; exact ⟨rfl, rfl⟩
  | _ => exact ⟨rfl, rfl⟩

/-- Giving a natural number to the accumulator changes C or N only above 255, and then sets C. -/
theorem State.accWrite_nat_cn_changed {value : Nat} {s : State}
    (h : (s.accWrite value).sr.c ≠ s.sr.c ∨ (s.accWrite value).sr.n ≠ s.sr.n) :
    255 < value ∧ (s.accWrite value).sr = { s.sr with n := false, v := true, c := true } := by
  rcases Flags.afterAccWrite_cn_changed h with ⟨high, hf⟩ | ⟨low, -⟩
  · exact ⟨by omega, hf⟩
  · omega

/-- A subtraction changes C or N only below 0, and then sets N. -/
theorem State.sub_cn_changed {value : Nat} {s : State}
    (h : (s.sub value).sr.c ≠ s.sr.c ∨ (s.sub value).sr.n ≠ s.sr.n) :
    s.acc.toNat < value ∧ (s.sub value).sr = { s.sr with n := true, v := true, c := false } := by
  rcases Flags.afterAccWrite_cn_changed h with ⟨high, -⟩ | ⟨low, hf⟩
  · omega
  · exact ⟨by omega, hf⟩

/-- Settles O24: the five instructions `exec_keeps_cn` leaves are two sums, a product and two differences. -/
theorem carryAndNegativeChangeOnlyOutOfRange : Obligations.CarryAndNegativeChangeOnlyOutOfRange := by
  intro s t h changed
  obtain ⟨-, i, hd, hx⟩ := step_next_cases h
  by_cases hi : i.writesAccOnly = true → i.alwaysInRange = true
  · obtain ⟨hc, hn⟩ := exec_keeps_cn hi hx
    exact absurd changed (not_or.2 ⟨not_not.2 hc, not_not.2 hn⟩)
  · cases i with
    | adda a =>
      cases hx
      obtain ⟨high, hf⟩ := State.accWrite_nat_cn_changed changed
      exact hf ▸ ⟨rfl, rfl, .inl ⟨rfl, rfl, .inl ⟨a, hd, high⟩⟩⟩
    | addn n =>
      cases hx
      obtain ⟨high, hf⟩ := State.accWrite_nat_cn_changed changed
      exact hf ▸ ⟨rfl, rfl, .inl ⟨rfl, rfl, .inr (.inl ⟨n, hd, high⟩)⟩⟩
    | lsl n =>
      cases hx
      obtain ⟨high, hf⟩ := State.accWrite_nat_cn_changed changed
      exact hf ▸ ⟨rfl, rfl, .inl ⟨rfl, rfl, .inr (.inr ⟨n, hd, high⟩)⟩⟩
    | suba a =>
      cases hx
      obtain ⟨low, hf⟩ := State.sub_cn_changed changed
      exact hf ▸ ⟨rfl, rfl, .inr ⟨rfl, rfl, .inl ⟨a, hd, low⟩⟩⟩
    | subn n =>
      cases hx
      obtain ⟨low, hf⟩ := State.sub_cn_changed changed
      exact hf ▸ ⟨rfl, rfl, .inr ⟨rfl, rfl, .inr ⟨n, hd, low⟩⟩⟩
    | _ => simp [Instr.writesAccOnly, Instr.alwaysInRange] at hi

/-! ### What no instruction reads: C, V, N and MAR (R27, R31) -/

/-- The same state with other flags. -/
def State.withSr (sr : Flags) (s : State) : State := { s with sr := sr }

/-- Where `exec i` makes `t` of `s`: of `s` with the flags `f` it makes `t` but for flags other than Z. -/
def AgreesBesides (i : Instr) (f : Flags) (s t : State) : Prop :=
  ∃ g : Flags, g.z = t.sr.z ∧ exec i (s.withSr f) = .next (t.withSr g)

/-- Z after an accumulator write depends on Z before it alone (R33). -/
theorem Flags.afterAccWrite_z_congr {f g : Flags} (value : Int) (h : f.z = g.z) :
    (f.afterAccWrite value).z = (g.afterAccWrite value).z := by
  unfold Flags.afterAccWrite
  split
  · exact h
  · split
    · exact h
    · rfl

/-- MOV, INC and DEC read of the flags at most Z. -/
theorem exec_withSr_of_takesRegister {i : Instr} {f : Flags} {s t : State}
    (hi : i.takesRegister = true) (hz : f.z = s.sr.z) (h : exec i s = .next t) :
    AgreesBesides i f s t := by
  cases i with
  | mov r | inc r | dec r =>
    obtain ⟨x, rfl, anywhere⟩ := withRegister_next h
    cases x with
    | acc => exact ⟨_, Flags.afterAccWrite_z_congr _ hz, anywhere _ _⟩
    | ix => exact ⟨f, hz, anywhere _ _⟩
  | _ => cases hi

/-- No instruction but BRK reads a flag other than Z. -/
theorem exec_withSr {i : Instr} {f : Flags} {s t : State} (notBrk : ∀ n, i ≠ .brk n)
    (hz : f.z = s.sr.z) (h : exec i s = .next t) : AgreesBesides i f s t := by
  cases i with
  | mov r | inc r | dec r => exact exec_withSr_of_takesRegister rfl hz h
  | brk n => exact absurd rfl (notBrk n)
  | cmpa a | cmpn a | cmi a => cases h; exact ⟨f.afterCompare _, rfl, rfl⟩
  | jpe a | jpn a =>
    cases h
    refine ⟨f, ?_, ?_⟩
    · rw [State.jumpIf_frame]; exact hz
    · simp only [exec, execJpe, execJpn, State.withSr, hz, State.jumpIf]
      split <;> rfl
  | endRun n | ldr n | sto a | jmp a | outp n | err n => cases h; exact ⟨f, hz, rfl⟩
  | _ => cases h; exact ⟨_, Flags.afterAccWrite_z_congr _ hz, rfl⟩

/-! ### The fetch registers (R27 to R29) -/

/-- No instruction writes MAR, MDR or CIR. -/
theorem exec_keeps_fetch_registers {i : Instr} {s t : State} (h : exec i s = .next t) :
    t.mar = s.mar ∧ t.mdr = s.mdr ∧ t.cir = s.cir := by
  cases exec_effect h <;> exact ⟨rfl, rfl, rfl⟩

/-- Settles O17: the fetch writes the three, and no instruction does after it. -/
theorem fetchRegistersHoldTheFetchedCell : Obligations.FetchRegistersHoldTheFetchedCell := by
  intro s t h
  obtain ⟨-, i, -, hx⟩ := step_next_cases h
  obtain ⟨hmar, hmdr, hcir⟩ := exec_keeps_fetch_registers hx
  exact ⟨hmar.trans (State.fetched_mar _ s), hmdr, hcir⟩

/-- A fetch makes states that differ in SR and MAR alone differ in SR alone. -/
theorem State.fetched_withSr (w : Word) (f : Flags) (mar : Word) (s : State) :
    ({ s with sr := f, mar := mar } : State).fetched w = (s.fetched w).withSr f := rfl

/-- A step runs the instruction its cell decodes to on what the fetch leaves (R195). -/
theorem step_of_decode {s : State} {i : Instr} (hpc : s.pc.toNat < 256)
    (hd : decode s.nextCell = .instr i) : step s = exec i (s.fetched s.nextCell) := by
  rcases fetch_cases s with ⟨-, hf⟩ | ⟨high, -⟩
  · simp only [step, cycle, hf, State.current_fetched, hd]
  · omega

/-- Settles O25: after the fetch the two states differ in C, V and N alone, and so by `exec_withSr` they do
after the instruction. -/
theorem nothingReadsCarryOverflowNegativeOrMar : Obligations.NothingReadsCarryOverflowNegativeOrMar := by
  intro s s' t ⟨same, hz⟩ notBrk h
  obtain ⟨f, mar, rfl⟩ : ∃ f mar, s' = { s with sr := f, mar := mar } := ⟨_, _, same⟩
  obtain ⟨hpc, i, hd, hx⟩ := step_next_cases h
  obtain ⟨g, hg, hx'⟩ :=
    exec_withSr (s := s.fetched s.nextCell) (fun n e => notBrk n (e ▸ hd)) hz hx
  refine ⟨t.withSr g, ?_, ⟨rfl, hg⟩, rfl⟩
  rw [step_of_decode (s := { s with sr := f, mar := mar }) hpc hd, State.fetched_withSr]
  exact hx'

/-! ### PC (R24, R25) -/

/-- Only a jump writes PC. -/
theorem exec_keeps_pc {i : Instr} {s t : State} (hi : i.isJump = false) (h : exec i s = .next t) :
    t.pc = s.pc := by
  cases exec_effect h with
  | jump hj | noJump hj => exact nomatch hi.symm.trans hj
  | _ => rfl

/-- PC after a jump, taken or not (R133 to R135). -/
theorem State.jumpIf_pc_toNat (taken : Bool) (target : Byte) (s : State) :
    (s.jumpIf taken target).pc.toNat = if taken then target.toNat else s.pc.toNat := by
  cases taken
  · rfl
  · exact s.jumpTo_pc_toNat target

theorem exec_fault_of_takesRegister {i : Instr} {s : State} {r : Fault} (hi : i.takesRegister = true)
    (h : exec i s = .fault r) : r = .unrecognizedRegister s := by
  obtain ⟨byte, hb⟩ := exec_of_takesRegister hi s
  rw [hb] at h
  rcases withRegister_cases i.operand s fun x => s.writeReg x (byte x).toNat with
    ⟨-, hw⟩ | ⟨-, hw⟩ | ⟨-, hw⟩
  · cases hw.symm.trans h
  · cases hw.symm.trans h
  · cases hw.symm.trans h
    rfl

/-- Executing an instruction fails only on a register operand, with the state as it stands (R173, R176). -/
theorem exec_fault {i : Instr} {s : State} {r : Fault} (h : exec i s = .fault r) :
    r = .unrecognizedRegister s := by
  cases i with
  | mov n | inc n | dec n => exact exec_fault_of_takesRegister rfl h
  | _ => cases h

/-- Where a hard failure of a step can come from, and the state it leaves (R171, R176). -/
theorem step_fault_cases {s : State} {r : Fault} (h : step s = .fault r) :
    r = .fetchOutOfRange s ∨ s.pc.toNat < 256 ∧
      (r = .unrecognizedOpcode (s.fetched s.nextCell) ∨
       r = .unrecognizedRegister (s.fetched s.nextCell)) := by
  rcases fetch_cases s with ⟨hpc, hf⟩ | ⟨-, hf⟩
  · refine .inr ⟨hpc, ?_⟩
    simp only [step, cycle, hf, State.current_fetched] at h
    cases hd : decode s.nextCell with
    | instr i => rw [hd] at h; exact .inr (exec_fault h)
    | unrecognizedOpcode p => rw [hd] at h; cases h; exact .inl rfl
  · simp only [step, cycle, hf] at h
    cases h
    exact .inl rfl

/-- END, ERR and a BRK answered `end` signal End (R160, R161, R164). -/
theorem exec_signals_end {i : Instr} {s t : State} (h : exec i s = .next t)
    (hi : (∃ n, i = .endRun n) ∨ (∃ n, i = .err n) ∨
      (∃ n, i = .brk n) ∧ Config.breakAnswer s.draws = .endRun) : t.ended.isSome := by
  rcases hi with ⟨n, rfl⟩ | ⟨n, rfl⟩ | ⟨⟨n, rfl⟩, answer⟩
  · cases h; rfl
  · cases h; rfl
  · cases h; rw [State.takeBreak_ended, if_pos answer]; rfl

/-- Settles O16: the fetch moves PC by one, and after it only a jump writes PC. -/
theorem pcAdvancesByOneOrJumps : Obligations.PcAdvancesByOneOrJumps := by
  refine ⟨fun s t i hd h => ?_, fun s l h => ?_, fun s t h hi => ?_⟩
  · obtain ⟨hpc, hx⟩ := exec_of_step hd h
    have advanced := State.fetched_pc_toNat s.nextCell hpc
    cases i with
    | jmp a => cases hx; exact State.jumpTo_pc_toNat a _
    | jpe a =>
      cases hx
      rw [State.jumpIf_pc_toNat, advanced]; rfl
    | jpn a =>
      cases hx
      rw [State.jumpIf_pc_toNat, advanced, State.fetched_sr]
      cases s.sr.z <;> rfl
    | _ => exact (congrArg BitVec.toNat (exec_keeps_pc rfl hx)).trans advanced
  · rcases h with h | h <;> rcases step_fault_cases h with e | ⟨hpc, e | e⟩ <;> cases e
    · exact State.fetched_pc_toNat _ hpc
    · exact State.fetched_pc_toNat _ hpc
  · obtain ⟨-, i, hd, hx⟩ := step_next_cases h
    refine exec_signals_end hx ?_
    simpa [hd] using hi

/-! ### The trace (R38) -/

/-- Only the host instructions append to the trace. -/
theorem exec_keeps_trace {i : Instr} {s t : State} (hi : i.reportsToHost = false)
    (h : exec i s = .next t) : t.trace = s.trace := by
  cases exec_effect h with
  | input _ _ hr | report _ _ _ hr => exact nomatch hi.symm.trans hr
  | _ => rfl

/-- Settles O19: the host instructions one by one, the others by `exec_keeps_trace`. -/
theorem stepAppendsTheEventsOfItsInstruction : Obligations.StepAppendsTheEventsOfItsInstruction := by
  intro s t i hd h
  obtain ⟨hpc, hx⟩ := exec_of_step hd h
  cases i with
  | outp n | inp n | endRun n => cases hx; rfl
  | err code => cases hx; exact ⟨_, rfl⟩
  | brk n =>
    cases hx
    have hmar := State.fetched_mar s.nextCell s
    exact ⟨_, rfl, State.fetched_pc_toNat s.nextCell hpc, hmar, rfl, rfl, rfl, rfl, rfl, rfl⟩
  | _ => exact (exec_keeps_trace rfl hx).trans (State.fetched_trace _ s)

/-! ### SR as a number and as text (R30, R32, decision D5) -/

/-- SR as a number is `8N + 4V + 2C + Z`. -/
theorem Flags.toBits_toNat (f : Flags) : (f.toBits Config.spec.srLayout).toNat
    = 8 * f.n.toNat + 4 * f.v.toNat + 2 * f.c.toNat + f.z.toNat := by
  obtain ⟨z, c, v, n⟩ := f
  revert z c v n
  decide

theorem Flags.ofBits_toBits (f : Flags) :
    Flags.ofBits Config.spec.srLayout (f.toBits Config.spec.srLayout) = f := by
  obtain ⟨z, c, v, n⟩ := f
  revert z c v n
  decide

theorem Flags.ofText_digits (f : Flags) : Flags.ofText Config.spec.srLayout f.digits = some f := by
  obtain ⟨z, c, v, n⟩ := f
  revert z c v n
  decide

/-- Settles O53: the number, its inverse, and the text. -/
theorem statusRegisterAsNumberAndText : Obligations.StatusRegisterAsNumberAndText :=
  fun f => ⟨f.toBits_toNat, f.ofBits_toBits, f.ofText_digits⟩

/-- A character that has a value is one of the two digits. -/
theorem binaryDigit_cases {ch : Char} {d : Nat} (h : binaryDigit ch = some d) :
    ∃ b : Bool, ch = if b then '1' else '0' := by
  unfold binaryDigit at h
  split at h
  · exact ⟨false, rfl⟩
  · exact ⟨true, rfl⟩
  · cases h

/-- A text that reads as flags is the digits of some flags. -/
theorem Flags.digits_of_ofText {layout : SrLayout} {text : List Char} {f : Flags}
    (h : Flags.ofText layout text = some f) : ∃ g : Flags, text = g.digits := by
  unfold Flags.ofText at h
  split at h
  · split at h
    · next h3 h2 h1 h0 =>
      obtain ⟨n, rfl⟩ := binaryDigit_cases h3
      obtain ⟨v, rfl⟩ := binaryDigit_cases h2
      obtain ⟨c, rfl⟩ := binaryDigit_cases h1
      obtain ⟨z, rfl⟩ := binaryDigit_cases h0
      exact ⟨⟨z, c, v, n⟩, rfl⟩
    · cases h
  · cases h

/-- The text of SR reads as flags exactly when it is their digits (R32). -/
theorem Flags.ofText_eq_some {text : List Char} {f : Flags} :
    Flags.ofText Config.spec.srLayout text = some f ↔ text = f.digits := by
  constructor
  · intro h
    obtain ⟨g, rfl⟩ := Flags.digits_of_ofText h
    rw [Option.some.inj ((Flags.ofText_digits g).symm.trans h)]
  · rintro rfl
    exact f.ofText_digits

/-! ### Reset and `clearMemory` (R39 to R41, decision D13) -/

/-- Settles O9: the registers by the reset lemmas, the cells because reset lists none. -/
theorem resetIsZeroEverywhere : Obligations.ResetIsZeroEverywhere :=
  ⟨State.reset_acc, State.reset_ix, State.reset_pc, State.reset_mar, State.reset_mdr, State.reset_cir,
    State.reset_sr, Memory.cellAt_clear, State.reset_ended, State.reset_trace⟩

/-- Settles O10: PC is 0, and memory that lists nothing is canonical. -/
theorem resetSatisfiesInvariant : Obligations.ResetSatisfiesInvariant :=
  ⟨by rw [State.reset_pc]; decide, State.reset_mem_wf⟩

theorem cellAt_clearMemory (s : State) (a : Byte) : (clearMemory s).mem.cellAt a = 0x0000 :=
  Memory.cellAt_filled _ a

/-- The default slice is every cell in order (R39). -/
theorem getMemorySlice_default (s : State) : getMemorySlice none none s =
    some ((List.range 256).map fun k => s.mem.cellAt (BitVec.ofNat 8 (0 + k))) := by
  unfold getMemorySlice
  exact if_pos (by decide)

/-- Settles O56: every read of the host is a read of a cell, or refused. -/
theorem clearedMemoryReadsZero : Obligations.ClearedMemoryReadsZero := by
  intro s
  refine ⟨rfl, fun a ha => ?_, ?_, fun a ha => if_neg (Nat.not_lt.2 ha)⟩
  · rw [getMemoryAt, if_pos ha, cellAt_clearMemory]
  · rw [getMemorySlice_default]
    simp only [cellAt_clearMemory, List.map_const', List.length_range]

/-! ### Construction (R40, R64) -/

/-- The images the machine accepts: at most 256 cells of 16 bits (R40, R64). -/
theorem imageValid_iff (image : List Nat) :
    imageValid image = true ↔ image.length ≤ 256 ∧ ∀ w ∈ image, w ≤ 65535 := by
  simp [imageValid]

/-- A cell of clear memory after an image was written over it from address `a` on (R64). -/
theorem cellAt_imageMemory_clear {image : List Nat} {a : Nat} (fits : a + image.length ≤ 256) (b : Byte) :
    (imageMemory Memory.clear a image).cellAt b =
      if a ≤ b.toNat then BitVec.ofNat 16 (image.getD (b.toNat - a) 0) else 0 := by
  induction image generalizing a with
  | nil => rw [imageMemory, Memory.cellAt_clear]; split <;> rfl
  | cons w ws ih =>
    rw [List.length_cons] at fits
    have here : b = BitVec.ofNat 8 a ↔ b.toNat = a := by
      rw [← BitVec.toNat_inj, BitVec.toNat_ofNat, Nat.mod_eq_of_lt (by omega)]
    rw [imageMemory, Memory.cellAt_writeWord, ih (by omega)]
    simp only [here]
    rcases Nat.lt_trichotomy b.toNat a with before | first | after
    · rw [if_neg (by omega), if_neg (by omega), if_neg (by omega)]
    · rw [if_pos first, if_pos first.ge, first, Nat.sub_self, List.getD_cons_zero]
    · rw [if_neg (by omega), if_pos (by omega), if_pos (by omega),
        show b.toNat - a = (b.toNat - (a + 1)) + 1 by omega, List.getD_cons_succ]

/-- The cells an accepted image makes of clear memory (R64): its own values, then zeros. -/
theorem cellAt_imageMemory_toNat {image : List Nat} (hv : imageValid image = true) (b : Byte) :
    ((imageMemory Memory.clear 0 image).cellAt b).toNat = image.getD b.toNat 0 := by
  obtain ⟨hlen, hword⟩ := (imageValid_iff image).1 hv
  rw [cellAt_imageMemory_clear (by omega), if_pos (Nat.zero_le _), Nat.sub_zero, BitVec.toNat_ofNat]
  refine Nat.mod_eq_of_lt ?_
  rw [List.getD_eq_getElem?_getD]
  cases hb : image[b.toNat]? with
  | none => decide
  | some w => exact Nat.lt_succ_of_le (hword w (List.mem_of_getElem? hb))

/-- A register argument is taken exactly when it is at most 255 (R40). -/
theorem registerArg_eq_some {arg : Option Nat} {v : Nat} :
    registerArg 0 arg = some v ↔ v = arg.getD 0 ∧ ∀ w, arg = some w → w ≤ 255 := by
  cases arg with
  | none => simp [registerArg, eq_comm]
  | some w => simp [registerArg, eq_comm, and_comm]

/-- An SR argument is taken exactly when it is the digits of the flags it gives (R32, R40). -/
theorem srArg_eq_some {arg : Option (List Char)} {f : Flags} :
    srArg Config.spec.srLayout State.reset.sr arg = some f ↔
      f.digits = arg.getD ['0', '0', '0', '0'] := by
  cases arg with
  | none =>
    have reset : Flags.ofText Config.spec.srLayout ['0', '0', '0', '0'] = some State.reset.sr := rfl
    rw [srArg, ← reset, Flags.ofText_eq_some, eq_comm]; rfl
  | some text => rw [srArg, Flags.ofText_eq_some, eq_comm]; rfl

/-- A memory argument is taken exactly when it is an accepted image (R40). -/
theorem memoryArg_eq_some {arg : Option (List Nat)} {m : Memory} :
    memoryArg Memory.clear arg = some m ↔
      m = imageMemory Memory.clear 0 (arg.getD []) ∧ ∀ image, arg = some image → imageValid image = true := by
  cases arg with
  | none => exact ⟨fun h => ⟨(Option.some.inj h).symm, nofun⟩, fun h => congrArg some h.1.symm⟩
  | some image =>
    rw [memoryArg, memoryOfImage, Option.ite_none_right_eq_some, Option.getD_some]
    constructor
    · rintro ⟨hv, hm⟩
      exact ⟨(Option.some.inj hm).symm, fun _ e => Option.some.inj e ▸ hv⟩
    · rintro ⟨rfl, hv⟩
      exact ⟨hv image rfl, rfl⟩

/-- Construction succeeds exactly when each argument is taken, and stores what they give (R40). -/
theorem construct_eq_some {args : ConstructArgs} {s : State} :
    construct args = some s ↔ ∃ m pc acc ix sr,
      memoryArg Memory.clear args.memory = some m ∧ registerArg 0 args.pc = some pc ∧
      registerArg 0 args.acc = some acc ∧ registerArg 0 args.ix = some ix ∧
      srArg Config.spec.srLayout State.reset.sr args.sr = some sr ∧
      s = { State.reset with mem := m, pc := BitVec.ofNat 9 pc, acc := BitVec.ofNat 8 acc,
                             ix := BitVec.ofNat 8 ix, sr := sr } := by
  unfold construct constructUnder
  constructor
  · intro h
    dsimp only at h
    split at h
    · next m pc acc ix sr hm hpc hacc hix hsr =>
      exact ⟨m, pc, acc, ix, sr, hm, hpc, hacc, hix, hsr, (Option.some.inj h).symm⟩
    · cases h
  · rintro ⟨m, pc, acc, ix, sr, hm, hpc, hacc, hix, hsr, rfl⟩
    dsimp only
    split
    · next hm' hpc' hacc' hix' hsr' =>
      cases hm.symm.trans hm'
      cases hpc.symm.trans hpc'
      cases hacc.symm.trans hacc'
      cases hix.symm.trans hix'
      cases hsr.symm.trans hsr'
      rfl
    · next other => exact (other m pc acc ix sr hm hpc hacc hix hsr).elim

/-- What construction takes from arguments in range, one argument at a time (R40). -/
theorem ConstructArgs.inRange_iff (args : ConstructArgs) :
    args.inRange ↔
      (∀ v, args.pc = some v → v ≤ 255) ∧ (∀ v, args.acc = some v → v ≤ 255) ∧
      (∀ v, args.ix = some v → v ≤ 255) ∧
      (∃ f : Flags, f.digits = args.sr.getD ['0', '0', '0', '0']) ∧
      ∀ image, args.memory = some image → imageValid image = true := by
  simp only [ConstructArgs.inRange, imageValid_iff]
  constructor
  · rintro ⟨hreg, hsr, hmem⟩
    refine ⟨fun v h => hreg v (.inl h), fun v h => hreg v (.inr (.inl h)),
      fun v h => hreg v (.inr (.inr h)), ?_, hmem⟩
    cases text : args.sr with
    | none => exact ⟨State.reset.sr, rfl⟩
    | some cs => exact (hsr cs text).imp fun _ => Eq.symm
  · rintro ⟨hpc, hacc, hix, ⟨f, hf⟩, hmem⟩
    refine ⟨fun v h => ?_, fun cs text => ⟨f, ?_⟩, hmem⟩
    · rcases h with h | h | h
      · exact hpc v h
      · exact hacc v h
      · exact hix v h
    · rw [hf, text]; rfl

/-- A register argument taken fits a byte and the nine bits of PC. -/
theorem registerArg_le {arg : Option Nat} {v : Nat} (h : registerArg 0 arg = some v) : v ≤ 255 := by
  obtain ⟨rfl, hle⟩ := registerArg_eq_some.1 h
  cases arg with
  | none => exact Nat.zero_le _
  | some w => exact hle w rfl

/-- A number that is a register argument, stored in the width of its register. -/
theorem toNat_ofNat_registerArg {arg : Option Nat} {v bits : Nat} (h : registerArg 0 arg = some v)
    (wide : 8 ≤ bits) : (BitVec.ofNat bits v).toNat = arg.getD 0 := by
  obtain ⟨rfl, -⟩ := registerArg_eq_some.1 h
  have le := registerArg_le h
  have room : 2 ^ 8 ≤ 2 ^ bits := Nat.pow_le_pow_right (by decide) wide
  rw [BitVec.toNat_ofNat, Nat.mod_eq_of_lt (by omega)]

/-- Settles O55: each argument is taken exactly when it is in range (`construct_eq_some`). -/
theorem constructionStoresItsArguments : Obligations.ConstructionStoresItsArguments := by
  intro args
  rw [args.inRange_iff]
  refine ⟨?_, fun outside => ?_⟩
  · rintro ⟨hpc, hacc, hix, ⟨f, hf⟩, hmem⟩
    have pcTaken := registerArg_eq_some.2 ⟨rfl, hpc⟩
    have accTaken := registerArg_eq_some.2 ⟨rfl, hacc⟩
    have ixTaken := registerArg_eq_some.2 ⟨rfl, hix⟩
    have valid : imageValid (args.memory.getD []) = true := by
      cases image : args.memory with
      | none => rfl
      | some ws => exact hmem ws image
    exact ⟨_, construct_eq_some.2 ⟨_, _, _, _, f, memoryArg_eq_some.2 ⟨rfl, hmem⟩, pcTaken, accTaken,
        ixTaken, srArg_eq_some.2 hf, rfl⟩,
      toNat_ofNat_registerArg pcTaken (by decide), toNat_ofNat_registerArg accTaken (by decide),
      toNat_ofNat_registerArg ixTaken (by decide), hf, cellAt_imageMemory_toNat valid, rfl⟩
  · by_contra built
    obtain ⟨s, hs⟩ := Option.ne_none_iff_exists'.1 built
    obtain ⟨m, pc, acc, ix, sr, hm, hpc, hacc, hix, hsr, -⟩ := construct_eq_some.1 hs
    exact outside ⟨(registerArg_eq_some.1 hpc).2, (registerArg_eq_some.1 hacc).2,
      (registerArg_eq_some.1 hix).2, ⟨sr, srArg_eq_some.1 hsr⟩, (memoryArg_eq_some.1 hm).2⟩

end Sys2Proof.Machine

/-!
PROOFS. The memory (spec 20_memory.md): what the store primitive writes, that no instruction writes an opcode
half, what a STO leaves for the fetch after it, and the host's load of an image.
-/

namespace Sys2Proof.Machine

/-! ### The store primitive (R54) -/

/-- Masking off the low half of a cell and setting it to `v` is joining the high half with `v` (R54). -/
theorem joinFields_and_or (p n v : Byte) :
    (joinFields p n &&& 0xFF00#16) ||| v.setWidth 16 = joinFields p v := by
  have mask : 0xFF00#16 = BitVec.allOnes 8 ++ 0#8 := rfl
  have low : v.setWidth 16 = 0#8 ++ v := BitVec.setWidth_eq_append (by decide)
  rw [mask, low, joinFields, BitVec.and_append, BitVec.or_append, BitVec.and_allOnes, BitVec.or_zero,
    BitVec.and_zero, BitVec.zero_or, joinFields]

/-- A cell after a store: its own opcode half with the byte stored, every other cell as it was (R54). -/
theorem Memory.cellAt_writeOperand (m : Memory) (a b v : Byte) :
    (m.writeOperand a v).cellAt b = if b = a then joinFields (m.opcodeAt b) v else m.cellAt b := by
  rw [Memory.cellAt, Memory.opcodeAt_writeOperand, Memory.operandAt_writeOperand]
  split <;> rfl

/-- No instruction writes an opcode half: of all effects only a store writes memory, and it writes an
operand half (R54). -/
theorem exec_keeps_opcodeAt {i : Instr} {s t : State} (h : exec i s = .next t) (a : Byte) :
    t.mem.opcodeAt a = s.mem.opcodeAt a := by
  cases exec_effect h with
  | store b => exact Memory.opcodeAt_writeOperand _ b a s.acc
  | _ => rfl

/-- Settles O20: the store by `Memory.cellAt_writeOperand`, the step because neither the fetch nor the
instruction writes an opcode half. -/
theorem noStepChangesAnOpcodeHalf : Obligations.NoStepChangesAnOpcodeHalf := by
  refine ⟨fun m a v => ⟨?_, fun b hb => ?_⟩, fun s t h a => ?_⟩
  · rw [Memory.cellAt_writeOperand, if_pos rfl, Memory.cellAt, joinFields_and_or]
  · rw [Memory.cellAt_writeOperand, if_neg hb]
  · obtain ⟨-, i, -, hx⟩ := step_next_cases h
    exact exec_keeps_opcodeAt hx a

/-! ### Self-modifying code (R62, R115) -/

theorem Opcode.operand_toInstr (o : Opcode) (b : Byte) : (o.toInstr b).operand = b := by
  cases o <;> rfl

/-- The operand byte of the instruction a cell decodes to is the cell's operand half (R72, R74). -/
theorem operandField_of_decode {w : Word} {i : Instr} (h : decode w = .instr i) :
    operandField w = i.operand := by
  unfold decode decodeWith decodeFieldsWith at h
  split at h
  · next o _ =>
    cases h
    exact (Opcode.operand_toInstr o _).symm
  · cases h

/-- A step on a cell that decodes to STO is the fetch and one store of ACC (R115, R195). -/
theorem step_of_decode_sto {s : State} {a : Byte} (hpc : s.pc.toNat < 256)
    (hd : decode s.nextCell = .instr (.sto a)) :
    step s = .next ((s.fetched s.nextCell).store a s.acc) :=
  step_of_decode hpc hd

/-- Settles O26: the store after the fetch writes memory alone, so MAR and MDR keep the fetched cell. -/
theorem stoToItsOwnCellKeepsTheFetchedWord : Obligations.StoToItsOwnCellKeepsTheFetchedWord := by
  intro s hpc hd
  refine ⟨_, step_of_decode_sto hpc hd, State.fetched_mar _ s, operandField_of_decode hd,
    State.fetched_pc_toNat s.nextCell hpc, ?_⟩
  rw [State.store_mem, Memory.cellAt_writeOperand, if_pos rfl, State.nextCell, Memory.opcodeField_cellAt]
  rfl

/-- A PC that addresses a cell has that cell's address in its low byte (R24). -/
theorem pcAddress_eq_of_toNat_eq {pc : BitVec 9} {a : Byte} (h : pc.toNat = a.toNat) :
    pcAddress pc = a := by
  apply BitVec.eq_of_toNat_eq
  rw [pcAddress, BitVec.toNat_setWidth, h, Nat.mod_eq_of_lt a.isLt]

/-- Settles O27: PC stands at the cell stored to, and the fetch reads what `Memory.cellAt_writeOperand` says
it holds. -/
theorem storeIsSeenByTheNextFetch : Obligations.StoreIsSeenByTheNextFetch := by
  intro s a p hpc ha hd hp
  have below : s.pc.toNat < 256 := hpc.trans (by decide)
  have atCell : ((s.fetched s.nextCell).store a s.acc).pc.toNat = a.toNat :=
    (State.fetched_pc_toNat s.nextCell below).trans ha.symm
  refine ⟨_, step_of_decode_sto below hd, ?_, atCell⟩
  rw [State.nextCell, pcAddress_eq_of_toNat_eq atCell, State.store_mem, Memory.cellAt_writeOperand,
    if_pos rfl, State.fetched_mem, hp]

/-! ### `loadMemory` (R64) -/

/-- `loadMemory` takes exactly the accepted images, and writes them over clear memory (R64, decision D23). -/
theorem loadMemory_eq (image : List Nat) (s : State) : loadMemory image s =
    if imageValid image then some { s with mem := imageMemory Memory.clear 0 image } else none := by
  unfold loadMemory memoryOfImage
  cases imageValid image <;> rfl

/-- Settles O54: an accepted image by its cells, a refused one because it is not accepted. -/
theorem loadMemoryWritesEveryCell : Obligations.LoadMemoryWritesEveryCell := by
  refine fun image s => ⟨fun inRange => ?_, fun outside => ?_⟩
  · have valid := (imageValid_iff image).2 inRange
    exact ⟨_, (loadMemory_eq image s).trans (if_pos valid), rfl, cellAt_imageMemory_toNat valid⟩
  · rw [loadMemory_eq, if_neg]
    intro valid
    obtain ⟨hlen, hword⟩ := (imageValid_iff image).1 valid
    rcases outside with long | ⟨w, hw, large⟩
    · omega
    · exact absurd (hword w hw) (Nat.not_le.2 large)

/-! ### Data reads (R53) -/

/-- A joined cell as a number (R8, R71). -/
theorem joinFields_toNat (p n : Byte) : (joinFields p n).toNat = 256 * p.toNat + n.toNat := by
  rw [joinFields, BitVec.toNat_append, ← Nat.shiftLeft_add_eq_or_of_lt n.isLt, Nat.shiftLeft_eq,
    Nat.mul_comm]

theorem Memory.cellAt_toNat (m : Memory) (a : Byte) :
    (m.cellAt a).toNat = 256 * (m.opcodeAt a).toNat + (m.operandAt a).toNat :=
  joinFields_toNat _ _

/-- The two readings of `MEMVAL` give the same value exactly on the cells whose opcode half is 0 (R53). -/
theorem Memory.val_operandByte_eq_wholeWord_iff (m : Memory) (a : Byte) :
    m.val .operandByte a = m.val .wholeWord a ↔ m.opcodeAt a = 0 := by
  rw [Memory.val, Memory.val, Memory.cellAt_toNat, ← BitVec.toNat_inj,
    show (0 : Byte).toNat = 0 from rfl]
  omega

/-- Settles O51: the cell is 256 times its opcode half plus its operand half. -/
theorem dataReadYieldsTheOperandHalf : Obligations.DataReadYieldsTheOperandHalf := by
  refine fun s a => ⟨?_, not_congr (s.mem.val_operandByte_eq_wholeWord_iff a)⟩
  rw [State.direct_eq, Memory.cellAt_toNat, Nat.mul_add_mod, Nat.mod_eq_of_lt (s.mem.operandAt a).isLt]

end Sys2Proof.Machine

/-!
PROOFS. The encoding (spec 30_encoding.md): a cell and its fields, decoding against encoding under any opcode
map, the legal encodings, and the assembler on printed text.
-/

namespace Sys2Proof.Machine

/-! ### The fields of a cell (R71) -/

/-- Settles O1: a cell is its two fields joined, so `joinFields_toNat` gives both. -/
theorem cellFieldsAreHighAndLowByte : Obligations.CellFieldsAreHighAndLowByte := by
  refine ⟨fun w => ?_, joinFields_toNat⟩
  have joined : w.toNat = 256 * (opcodeField w).toNat + (operandField w).toNat := by
    rw [← joinFields_toNat, joinFields_fields]
  have low := (operandField w).isLt
  omega

/-! ### Decoding and encoding under any opcode map (R72, R80, R81) -/

theorem Opcode.mem_all (o : Opcode) : o ∈ Opcode.all := by
  cases o <;> decide

theorem Opcode.opcode_toInstr (o : Opcode) (b : Byte) : (o.toInstr b).opcode = o := by
  cases o <;> rfl

theorem Instr.toInstr_opcode_operand (i : Instr) : i.opcode.toInstr i.operand = i := by
  cases i <;> rfl

/-- The opcode found for a byte has that byte as its number (R80). -/
theorem map_of_opcodeNumbered {map : Opcode → Byte} {b : Byte} {o : Opcode}
    (h : opcodeNumbered map b = some o) : map o = b :=
  eq_of_beq (List.find?_some (p := fun p => map p == b) h)

/-- No opcode is found for a byte exactly when it is the number of none (R82). -/
theorem opcodeNumbered_eq_none_iff {map : Opcode → Byte} {b : Byte} :
    opcodeNumbered map b = none ↔ ∀ o, map o ≠ b := by
  simp [opcodeNumbered, Opcode.mem_all]

/-- Under an injective map the number of an opcode finds that opcode (R81). -/
theorem opcodeNumbered_map {map : Opcode → Byte} (inj : Function.Injective map) (o : Opcode) :
    opcodeNumbered map (map o) = some o := by
  cases h : opcodeNumbered map (map o) with
  | none => exact absurd rfl (opcodeNumbered_eq_none_iff.1 h o)
  | some p => rw [inj (map_of_opcodeNumbered h)]

theorem decodeWith_encodeWith {map : Opcode → Byte} (inj : Function.Injective map) (i : Instr) :
    decodeWith map (encodeWith map i) = .instr i := by
  rw [decodeWith, encodeWith, opcodeField_joinFields, operandField_joinFields, decodeFieldsWith,
    opcodeNumbered_map inj]
  exact congrArg _ (Instr.toInstr_opcode_operand i)

/-- Settles O3: injectivity makes the number of an opcode find that opcode and no other. -/
theorem decodeOfEncodeForEveryInjectiveOpcodeMap :
    Obligations.DecodeOfEncodeForEveryInjectiveOpcodeMap :=
  fun _ inj i => decodeWith_encodeWith inj i

/-- What a cell decodes to: the instruction of the opcode its high half numbers (R72, R80). -/
theorem decodeWith_eq_instr_iff {map : Opcode → Byte} {w : Word} {i : Instr} :
    decodeWith map w = .instr i ↔
      ∃ o, opcodeNumbered map (opcodeField w) = some o ∧ o.toInstr (operandField w) = i := by
  unfold decodeWith decodeFieldsWith
  cases opcodeNumbered map (opcodeField w) <;> simp

/-- Settles O4: the opcode found has the cell's high half as its number, and the operand is its low half. -/
theorem encodeOfDecodeForEveryOpcodeMap : Obligations.EncodeOfDecodeForEveryOpcodeMap := by
  intro map w i h
  obtain ⟨o, ho, rfl⟩ := decodeWith_eq_instr_iff.1 h
  rw [encodeWith, Opcode.opcode_toInstr, Opcode.operand_toInstr, map_of_opcodeNumbered ho,
    joinFields_fields]

/-! ### The legal encodings at the default parameters (R82 to R84) -/

/-- The numbers of the opcodes in the order of R80 (decision D1). -/
theorem map_opcodeMap_all :
    Opcode.all.map (fun o => (Decisions.opcodeMap o).toNat) = List.range 0x1E ++ [0xFE, 0xFF] := by
  decide

theorem exists_opcodeMap_eq_iff (b : Byte) :
    (∃ o, Decisions.opcodeMap o = b) ↔ b.toNat < 0x1E ∨ 0xFE ≤ b.toNat := by
  have numbers : (∃ o, Decisions.opcodeMap o = b) ↔ b.toNat ∈ List.range 0x1E ++ [0xFE, 0xFF] := by
    simp only [← map_opcodeMap_all, List.mem_map, Opcode.mem_all, true_and, BitVec.toNat_inj]
  rw [numbers, List.mem_append, List.mem_range, List.mem_pair]
  omega

theorem opcodeMap_injective : Function.Injective Decisions.opcodeMap := by
  have nodup : (Opcode.all.map fun o => (Decisions.opcodeMap o).toNat).Nodup := by
    rw [map_opcodeMap_all]; decide
  exact fun o p h => List.inj_on_of_nodup_map nodup (Opcode.mem_all o) (Opcode.mem_all p)
    (congrArg BitVec.toNat h)

/-- A cell is rejected exactly when its opcode half is the number of no opcode (R82). -/
theorem decode_eq_unrecognizedOpcode_iff (w : Word) :
    decode w = .unrecognizedOpcode (opcodeField w) ↔ ¬ ∃ o, Decisions.opcodeMap o = opcodeField w := by
  rw [not_exists, ← opcodeNumbered_eq_none_iff, decode, decodeWith, decodeFieldsWith,
    Config.spec_opcodeMap]
  cases opcodeNumbered Decisions.opcodeMap (opcodeField w) <;> simp

/-- Settles O5: the complement of the numbers of D1. -/
theorem illegalOpcodesAre1EToFD : Obligations.IllegalOpcodesAre1EToFD := by
  intro w
  rw [decode_eq_unrecognizedOpcode_iff, exists_opcodeMap_eq_iff]
  omega

/-- A register operand completes in every state, or faults in every state, as its byte names a register
the instruction accepts or not (R83, R173). -/
theorem withRegister_of_namesRegister (c : Config) (accepted : List RegName) (r : Byte) (s : State)
    (k : RegName → State) :
    (namesRegister c accepted r = true → ∃ t, withRegister c accepted r s k = .next t) ∧
    (namesRegister c accepted r = false →
      withRegister c accepted r s k = .fault (.unrecognizedRegister s)) := by
  unfold namesRegister withRegister
  cases c.regCode r with
  | none => exact ⟨nofun, fun _ => rfl⟩
  | some x => by_cases hx : x ∈ accepted <;> simp [hx, raise]

/-- Settles O6: MOV, INC and DEC by their register operand; every other instruction completes. -/
theorem wellFormedCompletesIllFormedFaults : Obligations.WellFormedCompletesIllFormedFaults := by
  intro i s
  cases i with
  | mov r | inc r | dec r => exact withRegister_of_namesRegister _ _ r s _
  | _ => exact ⟨fun _ => ⟨_, rfl⟩, nofun⟩

/-- Settles O7: the four meanings do not mention their operand byte. -/
theorem noneShapeOperandIsIgnored : Obligations.NoneShapeOperandIsIgnored := by
  intro w w' same hop
  have decoded (v : Word) : decode v = decodeFields (opcodeField v) (operandField v) := rfl
  rw [decoded w, decoded w', ← same]
  simp only [List.mem_cons, List.not_mem_nil, or_false] at hop
  rcases hop with h | h | h | h <;> rw [h] <;> exact ⟨_, _, rfl, rfl, fun _ => rfl⟩

end Sys2Proof.Machine

namespace Sys2Proof.Machine.Assembler

/-! ### Translation (R90, R101) -/

/-- Settles O59: a program too long has a diagnostic and no image; any other has an image, of 256 cells,
exactly when there is no complaint. -/
theorem anyDiagnosticEmptiesTheImage : Obligations.AnyDiagnosticEmptiesTheImage := by
  intro source
  rcases translate_cases source with ⟨-, h⟩ | ⟨fits, labels, complaints, h⟩
  · rw [h]
    exact ⟨⟨fun _ => nofun, fun _ => rfl⟩, nofun⟩
  · have full : (imageOf Config.spec labels (survivingLines source)).length = 256 := imageOf_length _ fits
    rw [h]
    cases complaints with
    | nil =>
      refine ⟨⟨fun empty => ?_, fun complained => absurd rfl complained⟩, fun _ => full⟩
      exact absurd (congrArg List.length empty) (full.trans_ne (by decide))
    | cons d ds => exact ⟨⟨fun _ => nofun, fun _ => rfl⟩, nofun⟩

/-! ### Decimal literals (R96, R97) -/

theorem digitValue_of_isDigit (lexis : LiteralLexis) {ch : Char} (h : ch.isDigit = true) :
    digitValue lexis ch = some (ch.toNat - '0'.toNat) :=
  if_pos (Char.isDigit_iff_toNat.1 h)

/-- On decimal digits the assembler reads the number that the library's reading gives (R96). -/
theorem digitsValue_eq_ofDigitChars (lexis : LiteralLexis) {digits : Text}
    (h : ∀ ch ∈ digits, ch.isDigit = true) (sofar : Nat) :
    digitsValue lexis 10 sofar digits = some (Nat.ofDigitChars 10 digits sofar) := by
  induction digits generalizing sofar with
  | nil => rfl
  | cons ch rest ih =>
    obtain ⟨hch, hrest⟩ := List.forall_mem_cons.1 h
    have small : ch.toNat - '0'.toNat < 10 := by
      obtain ⟨-, high⟩ := Char.isDigit_iff_toNat.1 hch
      exact Nat.lt_succ_of_le (Nat.sub_le_sub_right high _)
    rw [digitsValue, digitValue_of_isDigit lexis hch]
    simp only [if_pos small]
    rw [ih hrest, Nat.ofDigitChars_cons, Nat.mul_comm]

/-- The decimal text of a byte reads as that byte (R96, R97, R104). -/
theorem parseDigits_toDigits (lexis : LiteralLexis) (b : Byte) :
    parseDigits lexis 10 (Nat.toDigits 10 b.toNat) = .value b := by
  have digits : ∀ ch ∈ Nat.toDigits 10 b.toNat, ch.isDigit = true :=
    fun _ => Nat.isDigit_of_mem_toDigits (by decide) (by decide)
  have inRange : b.toNat ≤ 255 := Nat.le_of_lt_succ b.isLt
  rw [parseDigits, if_neg (by simp [Nat.toDigits_ne_nil]), digitsValue_eq_ofDigitChars lexis digits,
    Nat.ofDigitChars_ten_toDigits, rangeChecked, if_pos inRange, BitVec.ofNat_toNat,
    BitVec.setWidth_eq]

/-- The decimal text of a number starts with a digit. -/
theorem exists_toDigits_eq_cons (n : Nat) :
    ∃ ch rest, Nat.toDigits 10 n = ch :: rest ∧ ch.isDigit = true := by
  obtain ⟨ch, rest, h⟩ := List.exists_cons_of_ne_nil (Nat.toDigits_ne_nil (b := 10) (n := n))
  have mem : ch ∈ Nat.toDigits 10 n := by rw [h]; exact List.mem_cons_self
  exact ⟨ch, rest, h, Nat.isDigit_of_mem_toDigits (by decide) (by decide) mem⟩

/-- A digit is no letter. -/
theorem isAlpha_of_isDigit {ch : Char} (h : ch.isDigit = true) : ch.isAlpha = false := by
  refine Bool.eq_false_iff.2 ?_
  simp only [Char.isDigit, Char.isAlpha, Char.isUpper, Char.isLower, Bool.and_eq_true, Bool.or_eq_true,
    decide_eq_true_eq, ge_iff_le, UInt32.le_iff_toNat_le, Char.reduceVal, UInt32.reduceToNat, ne_eq] at *
  omega

/-- A digit starts no name (R93). -/
theorem isNameStart_of_isDigit {ch : Char} (h : ch.isDigit = true) : isNameStart ch = false := by
  have ne (other : Char) (hother : other.isDigit = false) : (ch == other) = false :=
    beq_eq_false_iff_ne.2 fun e => Bool.false_ne_true (hother.symm.trans (e ▸ h))
  rw [isNameStart, isAlpha_of_isDigit h, ne '_' rfl, ne '$' rfl]
  rfl

/-- A text that starts with a digit is no number literal: those start with `#`, `B` or `&` (R96). -/
theorem parseNumber_of_isDigit (lexis : LiteralLexis) {ch : Char} (h : ch.isDigit = true) (rest : Text) :
    parseNumber lexis (ch :: rest) = .notThis := by
  unfold parseNumber
  split
  · next e => cases e; exact absurd h (by decide)
  · next e => cases e; exact absurd h (by decide)
  · next e => cases e; exact absurd h (by decide)
  · rfl

/-- A printed number is read as that number (R96, R104). -/
theorem parseNumber_printed (lexis : LiteralLexis) (b : Byte) :
    parseNumber lexis ('#' :: Nat.toDigits 10 b.toNat) = .value b :=
  parseDigits_toDigits lexis b

/-- A printed address is no number literal (R96, R104). -/
theorem parseNumber_toDigits (lexis : LiteralLexis) (n : Nat) :
    parseNumber lexis (Nat.toDigits 10 n) = .notThis := by
  obtain ⟨ch, rest, h, digit⟩ := exists_toDigits_eq_cons n
  rw [h, parseNumber_of_isDigit lexis digit]

/-- A printed address is read as that address, whatever the labels (R97, R104). -/
theorem addressOperand_toDigits (lexis : LiteralLexis) (labels : List Label) (b : Byte) :
    addressOperand lexis labels (Nat.toDigits 10 b.toNat) = .byte b := by
  have notName : isIdentifier (Nat.toDigits 10 b.toNat) = false := by
    obtain ⟨ch, rest, h, digit⟩ := exists_toDigits_eq_cons b.toNat
    rw [h, isIdentifier, isNameStart_of_isDigit digit, Bool.false_and]
  rw [addressOperand, notName, parseDigits_toDigits]
  rfl

/-! ### Register names (R98, decision D2) -/

/-- The bytes that name a register (decision D2). -/
theorem eq_of_namesRegister {r : Byte} (h : namesRegister Config.spec [.acc, .ix] r = true) :
    r = 0 ∨ r = 1 := by
  by_cases h0 : r = 0
  · exact .inl h0
  · by_cases h1 : r = 1
    · exact .inr h1
    · rw [namesRegister, Config.spec_regCode, Decisions.regCode, if_neg h0, if_neg h1] at h
      cases h

/-- Every opcode with a register operand accepts both registers (decision D3). -/
theorem acceptedRegisters_spec (o : Opcode) : acceptedRegisters Config.spec o = [.acc, .ix] :=
  ite_self _

/-- A byte that names a register is printed as a name that is read as that byte (R98, R104). -/
theorem exists_registerText {r : Byte} (h : namesRegister Config.spec [.acc, .ix] r = true) :
    ∃ t, registerText Config.spec r = some t ∧ ∀ o, registerOperand Config.spec o t = .byte r := by
  rcases eq_of_namesRegister h with rfl | rfl
  · exact ⟨"ACC".toList, rfl, fun o => by rw [registerOperand, acceptedRegisters_spec]; rfl⟩
  · exact ⟨"IX".toList, rfl, fun o => by rw [registerOperand, acceptedRegisters_spec]; rfl⟩

/-- A well-formed instruction of the register shape names a register (R83). -/
theorem namesRegister_of_wellFormed {i : Instr} (h : i.wellFormed = true)
    (shape : shapeOf i.opcode = .register) :
    namesRegister Config.spec [.acc, .ix] i.operand = true := by
  cases i with
  | mov r | inc r | dec r => exact h
  | _ => cases shape

/-! ### Mnemonics (R95, decision D20) -/

/-- No mnemonic ends in a colon, so none defines a label (R92, R93). -/
theorem definedName_mnemonic : ∀ e ∈ mnemonics, definedName e.1 = none := by decide

/-- The mnemonics are different words. -/
theorem lookup_mnemonic : ∀ e ∈ mnemonics, lookup e.1 mnemonics = some e.2 := by decide

/-- A line of a mnemonic and its operand is read by the mnemonic's form (R92). -/
theorem assembleLine_mnemonic (labels : List Label) {name : Text} {form : SourceForm}
    (entry : (name, form) ∈ mnemonics) {operands : List Text} (short : operands.length ≤ 1) :
    assembleLine labels (name :: operands) = assembleForm Config.spec labels form operands := by
  rw [assembleLine, assembleLineUnder, if_neg (by simp only [List.length_cons]; omega)]
  simp only [splitLabel, definedName_mnemonic _ entry, assembleBody, lookup_mnemonic _ entry]

/-- Every opcode has a source mnemonic, whose form emits it (R95). -/
theorem exists_sourceName (o : Opcode) :
    ∃ name form, sourceName o = some name ∧ (name, form) ∈ mnemonics ∧ form.emits o = true := by
  have found : (mnemonics.find? fun e => e.2.emits o).isSome := by cases o <;> rfl
  obtain ⟨⟨name, form⟩, he⟩ := Option.isSome_iff_exists.1 found
  exact ⟨name, form, by rw [sourceName, he]; rfl, List.mem_of_find?_eq_some he,
    List.find?_some (p := fun e : Text × SourceForm => e.2.emits o) he⟩

/-- Of the two opcodes of an `AddressOrNumber` form the first takes an address, the second a number (R73). -/
def SourceForm.shaped : SourceForm → Bool
  | .plain _ => true
  | .addressOrNumber a n => shapeOf a = .address && shapeOf n = .number

theorem shaped_mnemonic : ∀ e ∈ mnemonics, e.2.shaped = true := by decide

/-- How a form can emit an opcode: alone, or as the address or number half of a pair (R73, R95). -/
theorem form_cases_of_emits {name : Text} {form : SourceForm} {o : Opcode}
    (entry : (name, form) ∈ mnemonics) (emits : form.emits o = true) :
    form = .plain o ∨ (shapeOf o = .address ∧ ∃ n, form = .addressOrNumber o n) ∨
      (shapeOf o = .number ∧ ∃ a, form = .addressOrNumber a o) := by
  cases form with
  | plain p => exact .inl (congrArg _ (eq_of_beq emits))
  | addressOrNumber a n =>
    obtain ⟨address, number⟩ : shapeOf a = .address ∧ shapeOf n = .number := by
      simpa [SourceForm.shaped] using shaped_mnemonic _ entry
    rcases Bool.or_eq_true_iff.1 emits with h | h
    · cases eq_of_beq h; exact .inr (.inl ⟨address, n, rfl⟩)
    · cases eq_of_beq h; exact .inr (.inr ⟨number, a, rfl⟩)

/-! ### Printed instructions (R104) -/

/-- A well-formed instruction has a printed operand, of one token at most (R104). -/
theorem exists_operandText {i : Instr} (wf : i.wellFormed = true) :
    ∃ operands, operandText Config.spec i.opcode i.operand = some operands ∧ operands.length ≤ 1 := by
  unfold operandText
  cases shape : shapeOf i.opcode with
  | none => exact ⟨_, rfl, Nat.zero_le 1⟩
  | number | address => exact ⟨_, rfl, Nat.le_refl 1⟩
  | register =>
    obtain ⟨t, printed, -⟩ := exists_registerText (namesRegister_of_wellFormed wf shape)
    exact ⟨[t], by simp only [printed, Option.map_some], Nat.le_refl 1⟩

/-- A printed operand is read back by the opcode's own form (R99, R104). -/
theorem assembleForm_plain {i : Instr} (wf : i.wellFormed = true)
    (ignored : shapeOf i.opcode = .none → i.operand = 0) {operands : List Text}
    (printed : operandText Config.spec i.opcode i.operand = some operands) (labels : List Label) :
    assembleForm Config.spec labels (.plain i.opcode) operands = (i.opcode.toInstr i.operand, []) := by
  unfold operandText at printed
  cases shape : shapeOf i.opcode with
  | none =>
    rw [shape] at printed; cases printed
    simp only [assembleForm, shape, ignored shape]
  | number =>
    rw [shape] at printed; cases printed
    simp only [assembleForm, shape, numberOperand, parseNumber_printed, withOperand]
  | address =>
    rw [shape] at printed; cases printed
    simp only [assembleForm, shape, addressOperand_toDigits, withOperand]
  | register =>
    obtain ⟨t, name, read⟩ := exists_registerText (namesRegister_of_wellFormed wf shape)
    rw [shape, name] at printed; cases printed
    simp only [assembleForm, shape, read, withOperand]

/-- A printed operand is read back by every form that emits the opcode: of an `AddressOrNumber` form, the
number by its `#`, the address because it is no number literal (R99, R104). -/
theorem assembleForm_printed {i : Instr} (wf : i.wellFormed = true)
    (ignored : shapeOf i.opcode = .none → i.operand = 0) {operands : List Text}
    (printed : operandText Config.spec i.opcode i.operand = some operands) {name : Text}
    {form : SourceForm} (entry : (name, form) ∈ mnemonics) (emits : form.emits i.opcode = true)
    (labels : List Label) :
    assembleForm Config.spec labels form operands = (i.opcode.toInstr i.operand, []) := by
  rcases form_cases_of_emits entry emits with rfl | ⟨address, n, rfl⟩ | ⟨number, a, rfl⟩
  · exact assembleForm_plain wf ignored printed labels
  · rw [operandText, address] at printed; cases printed
    simp only [assembleForm, addressOrNumberOperand, parseNumber_toDigits, addressOperand_toDigits,
      withOperand]
  · rw [operandText, number] at printed; cases printed
    simp only [assembleForm, addressOrNumberOperand, parseNumber_printed, withOperand]

/-- The cell of an instruction is printed as its mnemonic and its operand (R104). -/
theorem disassemble_encode {i : Instr} {name : Text} {operands : List Text}
    (hname : sourceName i.opcode = some name)
    (hoperands : operandText Config.spec i.opcode i.operand = some operands) :
    disassemble (encode i) = some (name :: operands) := by
  have decoded : decodeWith Config.spec.opcodeMap (encode i) = .instr i :=
    decodeWith_encodeWith opcodeMap_injective i
  simp only [disassemble, disassembleUnder, decoded, hname, hoperands]

/-- Settles O60: the mnemonic names a form of the opcode, and that form reads the printed operand back. -/
theorem printedInstructionAssemblesBack : Obligations.PrintedInstructionAssemblesBack := by
  intro i wf ignored
  obtain ⟨name, form, hname, entry, emits⟩ := exists_sourceName i.opcode
  obtain ⟨operands, hoperands, short⟩ := exists_operandText wf
  refine ⟨name :: operands, disassemble_encode hname hoperands, ?_⟩
  rw [assembleLine_mnemonic [] entry short, assembleForm_printed wf ignored hoperands entry emits,
    Instr.toInstr_opcode_operand]

end Sys2Proof.Machine.Assembler

/-!
PROOFS. Load, store and move (spec 40_load_store_move.md): their results, and that STO is the only
instruction that writes memory.
-/

namespace Sys2Proof.Machine

/-! ### STO (R115) -/

/-- No instruction but STO writes memory (R36). -/
theorem exec_keeps_mem {i : Instr} {s t : State} (notSto : ∀ a, i ≠ .sto a) (h : exec i s = .next t) :
    t.mem = s.mem := by
  cases i with
  | sto a => exact absurd rfl (notSto a)
  | mov r | inc r | dec r =>
    obtain ⟨x, rfl, -⟩ := withRegister_next h
    cases x <;> rfl
  | jpe a | jpn a => cases h; rw [State.jumpIf_frame]
  | _ => cases h; rfl

/-- Settles O21: STO writes the operand half of its own cell, and no other instruction writes memory. -/
theorem onlyStoWritesMemory : Obligations.OnlyStoWritesMemory := by
  intro s t i h b hb
  by_cases isSto : ∃ a, i = .sto a
  · obtain ⟨a, rfl⟩ := isSto
    cases h
    rw [State.store_mem, Memory.cellAt_writeOperand, if_neg (hb a rfl)]
  · rw [exec_keeps_mem (not_exists.1 isSto) h]

/-- Settles O30: STO is one store of ACC, and O20 says what the store primitive writes. -/
theorem storeResult : Obligations.StoreResult := by
  intro a s
  obtain ⟨storeWrites, -⟩ := noStepChangesAnOpcodeHalf
  obtain ⟨ownCell, otherCells⟩ := storeWrites s.mem a s.acc
  exact ⟨s.store a s.acc, rfl, ownCell, otherCells, rfl⟩

/-! ### Loads (R110 to R114) -/

/-- A write of a byte to IX changes nothing else (R34). -/
theorem State.ixWrite_byte (b : Byte) (s : State) : s.ixWrite b.toNat = { s with ix := b } := by
  rw [State.ixWrite, normalise_byte]

/-- Settles O28: LDM is an accumulator write of a byte, LDR a write of a byte to IX. -/
theorem loadImmediateResults : Obligations.LoadImmediateResults :=
  fun n s => ⟨congrArg _ (State.accWrite_byte n s), congrArg _ (State.ixWrite_byte n s)⟩

/-- The indexed address is the sum modulo 256 (R56). -/
theorem State.indexedAddress_eq_ofNat_mod (s : State) (a : Byte) :
    s.indexedAddress a = BitVec.ofNat 8 ((a.toNat + s.ix.toNat) % 256) := by
  rw [State.indexedAddress_eq, ← BitVec.setWidth_eq (a + s.ix), ← BitVec.ofNat_toNat, BitVec.toNat_add]

/-- Settles O29: each load is an accumulator write of the operand half it addresses. -/
theorem loadFromMemoryResults : Obligations.LoadFromMemoryResults := by
  refine fun a s => ⟨congrArg _ (State.accWrite_byte _ s), congrArg _ (State.accWrite_byte _ s), ?_⟩
  rw [← State.indexedAddress_eq_ofNat_mod]
  exact congrArg _ (State.accWrite_byte _ s)

/-! ### MOV (R116) -/

/-- Settles O31: by the register the operand names, an accumulator write of ACC, a write of IX or the
fault. -/
theorem moveResults : Obligations.MoveResults := by
  refine fun s => ⟨congrArg _ (State.accWrite_byte s.acc s), congrArg _ (State.ixWrite_byte s.acc s),
    fun r high => ?_⟩
  rcases withRegister_cases r s fun x => s.writeReg x s.acc.toNat with ⟨rfl, -⟩ | ⟨rfl, -⟩ | ⟨-, fault⟩
  · exact absurd high (by decide)
  · exact absurd high (by decide)
  · exact fault

end Sys2Proof.Machine

/-!
PROOFS. Arithmetic (spec 41_arithmetic.md): the sums and differences are one accumulator write of the exact
value, and INC and DEC write the next or previous byte to the register their operand names.
-/

namespace Sys2Proof.Machine

/-! ### ADDA, ADDN, SUBA, SUBN (R120 to R123, R126) -/

/-- Settles O32: each of the four is one accumulator write of the exact sum or difference. -/
theorem addAndSubtractResults : Obligations.AddAndSubtractResults := fun b s =>
  ⟨⟨s.add (s.direct b), rfl, State.accWrite_written _ s⟩,
    ⟨s.add b.toNat, rfl, State.accWrite_written _ s⟩,
    ⟨s.sub (s.direct b), rfl, State.accWrite_written _ s⟩,
    ⟨s.sub b.toNat, rfl, State.accWrite_written _ s⟩⟩

/-! ### INC and DEC (R124, R125) -/

/-- The wrap of R124 is the wrap of byte addition. -/
theorem ite_eq_add_one (x : Byte) : (if x = 255 then 0 else x + 1) = x + 1 :=
  ite_eq_right_iff.2 fun wrap => wrap ▸ rfl

/-- The wrap of R125 is the wrap of byte subtraction. -/
theorem ite_eq_sub_one (x : Byte) : (if x = 0 then 255 else x - 1) = x - 1 :=
  ite_eq_right_iff.2 fun wrap => wrap ▸ rfl

/-- INC writes the next byte to the register its operand names (R124, decision D9). -/
theorem exec_inc (r : Byte) (s : State) : exec (.inc r) s =
    withRegister Config.spec [.acc, .ix] r s fun x => s.writeReg x (s.readReg x + 1).toNat := by
  simp only [← incremented_inRange]; rfl

/-- DEC writes the previous byte to the register its operand names (R125, decision D9). -/
theorem exec_dec (r : Byte) (s : State) : exec (.dec r) s =
    withRegister Config.spec [.acc, .ix] r s fun x => s.writeReg x (s.readReg x - 1).toNat := by
  simp only [← decremented_inRange]; rfl

/-- No register has a code of 2 or more (R173, decision D2). -/
theorem withRegister_of_two_le {r : Byte} (high : 2 ≤ r.toNat) (s : State) (k : RegName → State) :
    withRegister Config.spec [.acc, .ix] r s k = .fault (.unrecognizedRegister s) := by
  rcases withRegister_cases r s k with ⟨rfl, -⟩ | ⟨rfl, -⟩ | ⟨-, fault⟩
  · exact absurd high (by decide)
  · exact absurd high (by decide)
  · exact fault

/-- Settles O33: by the register the operand names, an accumulator write of a byte, a write of a byte to IX
or the fault. -/
theorem incrementAndDecrementResults : Obligations.IncrementAndDecrementResults := by
  intro s
  simp only [ite_eq_add_one, ite_eq_sub_one, exec_inc, exec_dec]
  exact ⟨congrArg _ (State.accWrite_byte _ s), congrArg _ (State.ixWrite_byte _ s),
    congrArg _ (State.accWrite_byte _ s), congrArg _ (State.ixWrite_byte _ s),
    fun _ high => ⟨withRegister_of_two_le high s _, withRegister_of_two_le high s _⟩⟩

/-! ### The two readings of `INCDEC_WRAP_FLAGS` (R124, R125, decision D9) -/

/-- Under either reading INC leaves the next byte, modulo 256. -/
theorem normalise_incremented (mode : IncDecWrapFlags) (x : Byte) :
    normalise (incremented mode x) = x + 1 := by
  cases mode with
  | inRange => rw [incremented_inRange, normalise_byte]
  | overflowRule =>
    refine ((modEq_iff_eq_normalise _ _).1 ?_).symm
    have next : (x + 1).toNat = (x.toNat + 1) % 256 := BitVec.toNat_add x 1
    rw [Int.ModEq, incremented, next]
    omega

/-- Under either reading DEC leaves the previous byte, modulo 256. -/
theorem normalise_decremented (mode : IncDecWrapFlags) (x : Byte) :
    normalise (decremented mode x) = x - 1 := by
  cases mode with
  | inRange => rw [decremented_inRange, normalise_byte]
  | overflowRule =>
    refine ((modEq_iff_eq_normalise _ _).1 ?_).symm
    have previous : (x - 1).toNat = (255 + x.toNat) % 256 := BitVec.toNat_sub x 1
    rw [Int.ModEq, decremented, previous]
    omega

/-- Short of the wrap both readings hand over the same value of INC. -/
theorem incremented_overflowRule_eq_inRange {x : Byte} (h : x ≠ 255) :
    incremented .overflowRule x = incremented .inRange x :=
  (if_neg fun wrap => h (BitVec.eq_of_toNat_eq wrap)).symm

/-- Short of the wrap both readings hand over the same value of DEC. -/
theorem decremented_overflowRule_eq_inRange {x : Byte} (h : x ≠ 0) :
    decremented .overflowRule x = decremented .inRange x :=
  (if_neg fun wrap => h (BitVec.eq_of_toNat_eq wrap)).symm

/-- Settles O52: the two readings agree modulo 256, and short of the wrap they are equal. -/
theorem incDecReadingsDifferOnlyInFlagsAtAWrap : Obligations.IncDecReadingsDifferOnlyInFlagsAtAWrap := by
  refine fun x s => ⟨?_, ?_, fun h => ?_, fun h => ?_⟩
  · simp only [State.accWrite_acc, normalise_incremented]
  · simp only [State.accWrite_acc, normalise_decremented]
  · rw [incremented_overflowRule_eq_inRange h]
  · rw [decremented_overflowRule_eq_inRange h]

end Sys2Proof.Machine

/-!
PROOFS. Compares and jumps (spec 42_compare_jump.md): the compares are one comparison of ACC with a byte, and
the conditional jumps are JMP or nothing.
-/

namespace Sys2Proof.Machine

/-! ### CMPA, CMPN, CMI (R130 to R132) -/

/-- Comparing ACC with a byte writes their equality to Z and nothing else (R130). -/
theorem State.compare_byte (b : Byte) (s : State) :
    s.compare b.toNat = { s with sr := { s.sr with z := s.acc == b } } := by
  have equality : decide (s.acc.toNat = b.toNat) = (s.acc == b) :=
    (decide_eq_decide.2 BitVec.toNat_inj).trans (beq_eq_decide s.acc b).symm
  rw [State.compare, equality, Flags.afterCompare]

/-- CMPN compares ACC with its operand byte (R131). -/
theorem exec_cmpn (n : Byte) (s : State) :
    exec (.cmpn n) s = .next { s with sr := { s.sr with z := s.acc == n } } :=
  congrArg _ (State.compare_byte n s)

/-- Settles O34: `exec_cmpn` in the two cases of the equality. -/
theorem compareImmediateResult : Obligations.CompareImmediateResult := by
  intro n s
  rw [exec_cmpn]
  exact ⟨fun equal => by rw [beq_iff_eq.2 equal], fun unequal => by rw [beq_eq_false_iff_ne.2 unequal]⟩

/-- Settles O35: each compares ACC with the operand half it reaches. -/
theorem compareMemoryResults : Obligations.CompareMemoryResults := fun a s =>
  ⟨congrArg _ (State.compare_byte (s.mem.operandAt a) s),
    congrArg _ (State.compare_byte (s.mem.operandAt (s.mem.operandAt a)) s)⟩

/-! ### JMP, JPE, JPN (R133 to R136) -/

/-- Settles O36: JMP is the write of PC. -/
theorem jumpResult : Obligations.JumpResult := fun a s =>
  ⟨s.jumpTo a, rfl, State.jumpTo_pc_toNat a s, rfl⟩

/-- JPE is JMP when Z is set (R134). -/
theorem exec_jpe (a : Byte) (s : State) :
    exec (.jpe a) s = if s.sr.z then exec (.jmp a) s else .next s :=
  apply_ite Host.Outcome.next _ _ _

/-- JPN is JMP when Z is clear (R135). -/
theorem exec_jpn (a : Byte) (s : State) :
    exec (.jpn a) s = if s.sr.z then .next s else exec (.jmp a) s := by
  have taken : exec (.jpn a) s = .next (s.jumpIf (!s.sr.z) a) := rfl
  rw [taken]
  cases s.sr.z <;> rfl

/-- Settles O37: in either case of Z one of the two jumps does nothing and the other is JMP. -/
theorem conditionalJumpResults : Obligations.ConditionalJumpResults := by
  intro a s
  rw [exec_jpe, exec_jpn]
  refine ⟨fun isSet => ?_, fun isClear => ?_⟩
  · rw [if_pos isSet, if_pos isSet]
    exact ⟨rfl, jumpResult a s⟩
  · rw [if_neg (Bool.eq_false_iff.1 isClear), if_neg (Bool.eq_false_iff.1 isClear)]
    exact ⟨rfl, jumpResult a s⟩

end Sys2Proof.Machine

/-!
PROOFS. Input and output (spec 43_io.md): IN records the answer of the host and gives it to the accumulator
write, and OUT is one event of the trace.
-/

namespace Sys2Proof.Machine

/-! ### IN (R140, R141) -/

/-- A code of one byte is the answer itself at the default `INPUT_BITS` (decision D16). -/
theorem inputCode_some_of_le {code : Nat} (h : code ≤ 255) : inputCode Config.spec (some code) = code :=
  Nat.mod_eq_of_lt (Nat.lt_succ_of_le h)

/-- Where the answer is one byte, IN leaves C, V and N as they were (R33, decision D6). -/
theorem State.input_inRange {code : Nat} (h : code ≤ 255) (s : State) :
    s.input code =
      { s.takeInput code with acc := BitVec.ofNat 8 code, sr := { s.sr with z := false } } :=
  State.accWrite_inRange h (s.takeInput code)

/-- Settles O38: at the default `INPUT_BITS` the answer is in range, and at any other width the shared
operation is still the accumulator write. -/
theorem inputResult : Obligations.InputResult := by
  refine ⟨fun ignored s => ?_, inputCode_none _, fun code => inputCode_some_of_le, fun code s => ?_⟩
  · have inRange := inputCode_lt (Config.inputAnswer s.draws)
    exact congrArg _ (State.input_inRange (Nat.le_of_lt_succ inRange) s)
  · exact State.accWrite_written code (s.takeInput code)

/-! ### OUT (R142, R143) -/

/-- Settles O39: OUT is `State.emit` of the code in ACC. -/
theorem outputResult : Obligations.OutputResult := fun _ _ => rfl

end Sys2Proof.Machine

/-!
PROOFS. Bitwise operations and shifts (spec 44_bitwise_shift.md): the bitwise operations and the right shift
give the accumulator write a byte, and the left shift gives it the exact product.
-/

namespace Sys2Proof.Machine

/-! ### ANDA, ANDN, ORA, ORN, XORA, XORN (R150 to R155, R158) -/

/-- A conjunction with a byte clears Z and keeps C, V and N (R158, decision D6). -/
theorem State.bitAnd_result (b : Byte) (s : State) :
    s.bitAnd b.toNat = { s with acc := s.acc &&& b, sr := { s.sr with z := false } } :=
  (s.bitAnd_byte b).trans (State.accWrite_byte _ s)

/-- A disjunction with a byte clears Z and keeps C, V and N (R158, decision D6). -/
theorem State.bitOr_result (b : Byte) (s : State) :
    s.bitOr b.toNat = { s with acc := s.acc ||| b, sr := { s.sr with z := false } } :=
  (s.bitOr_byte b).trans (State.accWrite_byte _ s)

/-- An exclusive disjunction with a byte clears Z and keeps C, V and N (R158, decision D6). -/
theorem State.bitXor_result (b : Byte) (s : State) :
    s.bitXor b.toNat = { s with acc := s.acc ^^^ b, sr := { s.sr with z := false } } :=
  (s.bitXor_byte b).trans (State.accWrite_byte _ s)

/-- Settles O40: the three operations on the operand byte. -/
theorem bitwiseImmediateResults : Obligations.BitwiseImmediateResults := fun n s =>
  ⟨congrArg _ (State.bitAnd_result n s), congrArg _ (State.bitOr_result n s),
    congrArg _ (State.bitXor_result n s)⟩

/-- Settles O41: the three operations on the operand half of the cell (decision D4). -/
theorem bitwiseMemoryResults : Obligations.BitwiseMemoryResults := fun a s =>
  ⟨congrArg _ (State.bitAnd_result (s.mem.operandAt a) s),
    congrArg _ (State.bitOr_result (s.mem.operandAt a) s),
    congrArg _ (State.bitXor_result (s.mem.operandAt a) s)⟩

/-! ### LSL (R156) -/

/-- The product by a power of two is, modulo 256, the left shift. -/
theorem normalise_mul_two_pow (b : Byte) (k : Nat) :
    normalise ((b.toNat * 2 ^ k : Nat) : Int) = b <<< k := by
  have product := normalise_toNat ((b.toNat * 2 ^ k : Nat) : Int)
  refine BitVec.eq_of_toNat_eq ?_
  rw [BitVec.toNat_shiftLeft, Nat.shiftLeft_eq]
  omega

/-- A non-zero byte shifted left by 8 or more is out of range (decision D11). -/
theorem lt_mul_two_pow_of_ne_zero {b : Byte} (nonzero : b ≠ 0) {k : Nat} (large : 8 ≤ k) :
    255 < b.toNat * 2 ^ k := by
  have positive : 0 < b.toNat := Nat.pos_of_ne_zero fun zero => nonzero (BitVec.eq_of_toNat_eq zero)
  calc 255 < 2 ^ 8 := by decide
    _ ≤ 2 ^ k := Nat.pow_le_pow_right (by decide) large
    _ ≤ b.toNat * 2 ^ k := Nat.le_mul_of_pos_left _ positive

/-- Settles O42: LSL is one accumulator write of the exact product, out of range for a count of 8 or more. -/
theorem shiftLeftResult : Obligations.ShiftLeftResult := by
  intro n s
  have written := State.accWrite_written (s.acc.toNat * 2 ^ n.toNat : Nat) s
  have shifted := normalise_mul_two_pow s.acc n.toNat
  refine ⟨_, rfl, written, shifted, fun large nonzero => ?_⟩
  obtain ⟨-, -, outOfRange, -, -⟩ := written
  have flags := outOfRange (Int.ofNat_lt.2 (lt_mul_two_pow_of_ne_zero nonzero large))
  rw [flags]
  exact ⟨shifted.trans (BitVec.shiftLeft_eq_zero large), rfl, rfl, rfl⟩

/-! ### LSR (R157) -/

/-- LSR shifts ACC right, clears Z and keeps C, V and N (R157, decision D6). -/
theorem exec_lsr_result (n : Byte) (s : State) :
    exec (.lsr n) s = .next { s with acc := s.acc >>> n.toNat, sr := { s.sr with z := false } } :=
  (exec_lsr n s).trans (congrArg _ (State.accWrite_byte _ s))

/-- Settles O43: a byte shifted right by 8 or more is 0 (decision D11). -/
theorem shiftRightResult : Obligations.ShiftRightResult := by
  refine fun n s => ⟨exec_lsr_result n s, fun large => ?_⟩
  have cleared : s.acc >>> n.toNat = 0 := BitVec.ushiftRight_eq_zero large
  rw [exec_lsr_result, cleared]

end Sys2Proof.Machine

/-!
PROOFS. END, BRK and ERR (spec 45_end_brk_err.md): END is `State.signalEnd`, BRK is `State.takeBreak` of the
host's answer, and ERR is `State.emit` of its kind and code before the signal.
-/

namespace Sys2Proof.Machine

/-! ### END, BRK (R160 to R162) -/

/-- The answer `end` signals End(Break) (R161, decision D17). -/
theorem State.takeBreak_endRun_ended (s : State) : (s.takeBreak .endRun).ended = some .breakpoint := rfl

/-- The answer `continue` signals nothing (R161, decision D17). -/
theorem State.takeBreak_goOn_ended (s : State) : (s.takeBreak .goOn).ended = s.ended := rfl

/-- Settles O44: BRK hands over the dump under either answer, and the answer decides the report alone. -/
theorem endAndBreakResults : Obligations.EndAndBreakResults := by
  intro ignored s
  have dumped := s.takeBreak_trace (Config.breakAnswer s.draws)
  refine ⟨rfl, s.takeBreak (Config.breakAnswer s.draws), rfl, rfl, dumped, fun ends => ?_, fun goesOn => ?_⟩
  · rw [ends]
    exact s.takeBreak_endRun_ended
  · rw [goesOn]
    exact s.takeBreak_goOn_ended

/-! ### ERR (R164, R165) -/

/-- The codes from 3 up name no kind (R165, decision D14). -/
theorem errKind_eq_unknown {code : Byte} (h : 3 ≤ code.toNat) : Decisions.errKind code = .unknown := by
  have unnamed {n : Byte} (small : n.toNat < 3) : code ≠ n := by
    rintro rfl
    omega
  unfold Decisions.errKind
  rw [if_neg (unnamed (by decide)), if_neg (unnamed (by decide)), if_neg (unnamed (by decide))]

/-- Settles O45: the kind is `Decisions.errKind` of the code, by the three named codes and the rest. -/
theorem errorReportResult : Obligations.ErrorReportResult := by
  refine fun code s => ⟨Decisions.errKind code, rfl, fun h => ?_, fun h => ?_, fun h => ?_, errKind_eq_unknown⟩
  · rw [show code = 0 from BitVec.eq_of_toNat_eq h]
    rfl
  · rw [show code = 1 from BitVec.eq_of_toNat_eq h]
    rfl
  · rw [show code = 2 from BitVec.eq_of_toNat_eq h]
    rfl

end Sys2Proof.Machine

/-!
PROOFS. Exceptions (spec 60_exceptions.md): the three ways a step can go, which of them end in a hard failure
and in which state, and which instructions signal End.
-/

namespace Sys2Proof.Machine

/-! ### How a step can end (R170) -/

/-- A cell names no opcode, or it decodes to an instruction (R82). -/
theorem decode_cases (w : Word) :
    decode w = .unrecognizedOpcode (opcodeField w) ∨ ∃ i, decode w = .instr i := by
  rw [decode, decodeWith, decodeFieldsWith]
  cases opcodeNumbered Config.spec.opcodeMap (opcodeField w) with
  | none => exact .inl rfl
  | some o => exact .inr ⟨_, rfl⟩

/-- The three ways a step can go, in the order of R178: it fails at the fetch, it fails because the cell names
no opcode, or it runs the instruction the cell decodes to. -/
theorem step_cases (s : State) :
    (256 ≤ s.pc.toNat ∧ step s = .fault (.fetchOutOfRange s)) ∨
    (s.pc.toNat < 256 ∧ decode s.nextCell = .unrecognizedOpcode (opcodeField s.nextCell) ∧
      step s = .fault (.unrecognizedOpcode (s.fetched s.nextCell))) ∨
    (s.pc.toNat < 256 ∧ ∃ i, decode s.nextCell = .instr i ∧
      step s = exec i (s.fetched s.nextCell)) := by
  rcases fetch_cases s with ⟨hpc, hf⟩ | ⟨hpc, hf⟩
  · rcases decode_cases s.nextCell with hd | ⟨i, hd⟩
    · refine .inr (.inl ⟨hpc, hd, ?_⟩)
      simp only [step, cycle, hf, State.current_fetched, hd]
      rfl
    · exact .inr (.inr ⟨hpc, i, hd, step_of_decode hpc hd⟩)
  · exact .inl ⟨hpc, by simp only [step, cycle, hf]⟩

/-- Settles O15: a well-formed instruction completes, and whatever else a step meets is a fault. -/
theorem noStepRefuses : Obligations.NoStepRefuses := by
  intro s
  rcases step_cases s with ⟨-, h⟩ | ⟨-, -, h⟩ | ⟨-, i, -, h⟩
  · exact .inr ⟨_, h⟩
  · exact .inr ⟨_, h⟩
  · obtain ⟨completes, fails⟩ := wellFormedCompletesIllFormedFaults i (s.fetched s.nextCell)
    rw [h]
    cases wf : i.wellFormed with
    | true => exact .inl (completes wf)
    | false => exact .inr ⟨_, fails wf⟩

/-! ### When a step fails (R171 to R174, R178) -/

/-- An instruction fails exactly when it is ill-formed, with the state as it stands (R173, decision D18). -/
theorem exec_eq_fault_iff {i : Instr} {s : State} {r : Fault} :
    exec i s = .fault r ↔ i.wellFormed = false ∧ r = .unrecognizedRegister s := by
  obtain ⟨completes, fails⟩ := wellFormedCompletesIllFormedFaults i s
  refine ⟨fun h => ⟨?_, exec_fault h⟩, fun ⟨ill, hr⟩ => hr ▸ fails ill⟩
  by_contra wf
  obtain ⟨t, ht⟩ := completes (Bool.eq_true_of_not_eq_false wf)
  cases ht.symm.trans h

/-- The codes from 2 up name no register (R22, decision D2). -/
theorem namesRegister_eq_false_iff (r : Byte) :
    namesRegister Config.spec [.acc, .ix] r = false ↔ 2 ≤ r.toNat := by
  refine ⟨fun h => ?_, fun high => ?_⟩
  · by_contra low
    obtain rfl | rfl : r = 0 ∨ r = 1 := by bv_omega
    · exact absurd h (by decide)
    · exact absurd h (by decide)
  · by_contra names
    rcases Assembler.eq_of_namesRegister (Bool.eq_true_of_not_eq_false names) with rfl | rfl
    · exact absurd high (by decide)
    · exact absurd high (by decide)

/-- The ill-formed instructions are MOV, INC and DEC with an operand of 2 or more (R83; decisions D1 to D3). -/
theorem wellFormed_eq_false_iff (i : Instr) : i.wellFormed = false ↔
    Decisions.opcodeMap i.opcode ∈ [(0x07 : Byte), 0x0C, 0x0D] ∧ 2 ≤ i.operand.toNat := by
  cases i with
  | mov r | inc r | dec r =>
    refine (namesRegister_eq_false_iff r).trans (and_iff_right ?_).symm
    simp [Instr.opcode, Decisions.opcodeMap]
  | _ =>
    refine iff_of_false nofun fun ⟨number, _⟩ => ?_
    simp [Instr.opcode, Decisions.opcodeMap] at number

/-- The numbers of MOV, INC and DEC are legal (decision D1). -/
theorem registerOpcode_lt : ∀ b ∈ [(0x07 : Byte), 0x0C, 0x0D], b.toNat < 0x1E := by decide

/-- The number of the instruction a cell decodes to is the cell's high half (R72). -/
theorem opcodeMap_of_decode {w : Word} {i : Instr} (h : decode w = .instr i) :
    Decisions.opcodeMap i.opcode = opcodeField w := by
  rw [← encodeOfDecodeForEveryOpcodeMap _ w i h, encodeWith, opcodeField_joinFields]
  rfl

/-- Settles O13: `step_cases`, where each case rules out the failures of the other two. -/
theorem stepFaultsExactlyAsListed : Obligations.StepFaultsExactlyAsListed := by
  intro s r
  have high : s.mem.opcodeAt (s.pc.setWidth 8) = opcodeField s.nextCell :=
    (Memory.opcodeField_cellAt _ _).symm
  have low : s.mem.operandAt (s.pc.setWidth 8) = operandField s.nextCell :=
    (Memory.operandField_cellAt _ _).symm
  have illegal := illegalOpcodesAre1EToFD s.nextCell
  rw [high, low]
  rcases step_cases s with ⟨hpc, h⟩ | ⟨hpc, hd, h⟩ | ⟨hpc, i, hd, h⟩
  · rw [h, Host.Outcome.fault.injEq, eq_comm]
    simp [hpc, Nat.not_lt.2 hpc]
  · obtain ⟨above, below⟩ := illegal.1 hd
    have noRegister : opcodeField s.nextCell ∉ [(0x07 : Byte), 0x0C, 0x0D] := fun member =>
      absurd (registerOpcode_lt _ member) (Nat.not_lt.2 above)
    rw [h, Host.Outcome.fault.injEq, eq_comm]
    simp only [hpc, Nat.not_le.2 hpc, above, below, noRegister, true_and, false_and, false_or, or_false]
  · have legal : ¬ (0x1E ≤ (opcodeField s.nextCell).toNat ∧ (opcodeField s.nextCell).toNat ≤ 0xFD) :=
      fun range => by cases hd.symm.trans (illegal.2 range)
    rw [h, exec_eq_fault_iff, wellFormed_eq_false_iff, opcodeMap_of_decode hd,
      ← operandField_of_decode hd]
    simp only [hpc, Nat.not_le.2 hpc, ← and_assoc, legal, true_and, false_and, false_or]

/-! ### The state a failure leaves (R176) -/

/-- Settles O14: a failure leaves the state before the step or what the fetch makes of it. -/
theorem faultLeavesOnlyTheFetchWrites : Obligations.FaultLeavesOnlyTheFetchWrites := by
  intro s r h
  rcases step_fault_cases h with rfl | ⟨hpc, fault⟩
  · rfl
  · have hpc' := State.fetched_pc_toNat s.nextCell hpc
    have hmar := State.fetched_mar s.nextCell s
    rcases fault with rfl | rfl <;>
      exact ⟨hpc', hmar, rfl, rfl, rfl, rfl, rfl, rfl, sameCells_of_mem_eq rfl⟩

/-! ### The End signal (R175) -/

/-- Only the host instructions write the report. -/
theorem exec_keeps_ended {i : Instr} {s t : State} (hi : i.reportsToHost = false)
    (h : exec i s = .next t) : t.ended = s.ended := by
  cases exec_effect h with
  | report _ _ _ hr => exact nomatch hi.symm.trans hr
  | _ => rfl

/-- Settles O18: the fetch clears the report, and after it only END, ERR and BRK write it. -/
theorem endSignalComesFromEndErrAndBrkOnly : Obligations.EndSignalComesFromEndErrAndBrkOnly := by
  intro s t i hd h
  obtain ⟨-, hx⟩ := exec_of_step hd h
  cases i with
  | endRun n | err n | brk n | outp n | inp n => cases hx; rfl
  | _ => exact (exec_keeps_ended rfl hx).trans (State.fetched_ended _ s)

end Sys2Proof.Machine

/-!
PROOFS. Words of the opcode table, the cycle and the run loop (spec 30_encoding.md R80, R82;
70_reset_and_hazards.md R195 to R198, R205). A run other than one out of its budget comes out as `runEnd` of the
first single step that does not go on, which the budget enters only as a bound on the number of that step.
-/

namespace Sys2Proof.Machine

/-! ### Words of the opcode table (R80, R82) -/

/-- Decoding the cell of an instruction gives the instruction back, at the numbers of decision D1. -/
theorem decode_encode (i : Instr) : decode (encode i) = .instr i :=
  decodeWith_encodeWith opcodeMap_injective i

/-- Settles O2: the legal words are the cells of their instructions, and the other two are the ends of the
range of `illegalOpcodesAre1EToFD`. -/
theorem wordsOfTheSpecDecode : Obligations.WordsOfTheSpecDecode :=
  ⟨decode_encode (.ldm 200), decode_encode (.sto 40), decode_encode (.mov 1), decode_encode (.addn 100),
    decode_encode (.jpe 7), decode_encode (.inp 171), decode_encode (.lsr 7), decode_encode (.err 7),
    (illegalOpcodesAre1EToFD 0x1E00).2 (by decide), (illegalOpcodesAre1EToFD 0xFD00).2 (by decide)⟩

/-! ### The cycle (R195) -/

/-- The fetch writes MAR, MDR, CIR and PC, and clears the report of the step before (decisions D7, D8). -/
theorem State.fetched_eq (w : Word) (s : State) : s.fetched w =
    { s with mar := w, mdr := operandField w, cir := opcodeField w, pc := s.pc + 1, ended := none } := by
  have hmar := State.fetched_mar w s
  calc s.fetched w
    _ = { s.fetched w with mar := (s.fetched w).mar } := rfl
    _ = { s.fetched w with mar := w } := by rw [hmar]

/-- Settles O12: `step_of_decode`, with the writes of the fetch written out. -/
theorem stepRunsTheDecodedInstruction : Obligations.StepRunsTheDecodedInstruction := by
  intro s i hpc hd
  have run : step s = exec i (s.fetched s.nextCell) := step_of_decode hpc hd
  rw [run, State.fetched_eq]
  rfl

/-! ### How a step leaves the run loop (R196, R198) -/

/-- How a run comes out when a step of it comes out so; none when the run goes on. -/
def runEnd : Result → Option RunResult
  | .next t    => t.ended.map fun reason => .ended reason t
  | .fault r   => some (.faulted r)
  | .refused r => some (.refused r)

theorem runEnd_eq_none_iff {o : Result} : runEnd o = none ↔ ∃ u, o = .next u ∧ u.ended = none := by
  cases o <;> simp [runEnd]

theorem runEnd_eq_ended_iff {o : Result} {reason : EndReason} {t : State} :
    runEnd o = some (.ended reason t) ↔ o = .next t ∧ t.ended = some reason := by
  cases o with
  | next u =>
    simp only [runEnd, Option.map_eq_some_iff, RunResult.ended.injEq, Host.Outcome.next.injEq]
    constructor
    · rintro ⟨_, he, rfl, rfl⟩
      exact ⟨rfl, he⟩
    · rintro ⟨rfl, he⟩
      exact ⟨reason, he, rfl, rfl⟩
  | fault r | refused r => simp [runEnd]

theorem runEnd_eq_faulted_iff {o : Result} {r : Fault} :
    runEnd o = some (.faulted r) ↔ o = .fault r := by
  cases o <;> simp [runEnd]

/-- Running out of budget is no outcome of a step (R205). -/
theorem runEnd_ne_outOfBudget (o : Result) (t : State) : runEnd o ≠ some (.outOfBudget t) := by
  cases o <;> simp [runEnd]

/-! ### The run loop against single steps (R196, R197) -/

/-- One single step is `step` (R197). -/
theorem core_run_one (s : State) : core.run 1 s = step s := by
  cases h : step s with
  | next t => exact core_run_succ h 0
  | fault r => exact core_run_fault h 0
  | refused r =>
    rw [Host.Core.run.eq_2 core s 0, show core.step s = .refused r from h]
    rfl

/-- A run whose first step does not go on is over with it (R198). -/
theorem runLoop_of_runEnd {s : State} {out : RunResult} (h : runEnd (step s) = some out) (budget : Nat) :
    runLoop step (budget + 1) s = out := by
  rw [runLoop_succ]
  cases hs : step s with
  | next t =>
    rw [hs] at h
    obtain ⟨reason, he, rfl⟩ := Option.map_eq_some_iff.1 h
    simp only [he]
  | fault r | refused r =>
    rw [hs] at h
    cases h
    rfl

/-- A run whose first step goes on is the run from there with one step less (R196). -/
theorem runLoop_of_goesOn {s u : State} (h : step s = .next u) (on : u.ended = none) (budget : Nat) :
    runLoop step (budget + 1) s = runLoop step budget u := by
  rw [runLoop_succ, h]
  simp only [on]

/-- Nothing goes on past a step that ends the run (R198). -/
theorem not_goesOnFor_succ_of_runEnd {s : State} {out : RunResult} (h : runEnd (step s) = some out)
    (k : Nat) : ¬ goesOnFor (k + 1) s := by
  intro on
  have first : runEnd (core.run 1 s) = none := runEnd_eq_none_iff.2 (on 0 k.succ_pos)
  rw [core_run_one, h] at first
  cases first

/-- A run not out of its budget comes out as the first single step that does not go on (R196, R197). -/
theorem runLoop_eq_iff {out : RunResult} (inBudget : ∀ u, out ≠ .outOfBudget u) (budget : Nat)
    (s : State) : runLoop step budget s = out ↔
      ∃ k, k < budget ∧ goesOnFor k s ∧ runEnd (core.run (k + 1) s) = some out := by
  induction budget generalizing s with
  | zero =>
    have exhausted : runLoop step 0 s ≠ out := (inBudget s).symm
    simp [exhausted]
  | succ budget ih =>
    rw [Nat.exists_lt_succ_left]
    cases hs : runEnd (step s) with
    | some first =>
      simp [runLoop_of_runEnd hs, not_goesOnFor_succ_of_runEnd hs, goesOnFor_zero, core_run_one, hs]
    | none =>
      obtain ⟨u, hu, on⟩ := runEnd_eq_none_iff.1 hs
      have goesOn : runEnd (core.run 0 u) = none := runEnd_eq_none_iff.2 ⟨u, rfl, on⟩
      simp [runLoop_of_goesOn hu on, goesOnFor_succ hu, core_run_succ hu, goesOn, on, ih]

/-- A run is out of its budget when all the single steps of the budget go on (R205). -/
theorem runLoop_eq_outOfBudget_iff (budget : Nat) (s t : State) :
    runLoop step budget s = .outOfBudget t ↔ goesOnFor budget s ∧ core.run budget s = .next t := by
  induction budget generalizing s with
  | zero =>
    have here : core.run 0 s = .next t ↔ s = t := ⟨Host.Outcome.next.inj, congrArg _⟩
    simp [runLoop, goesOnFor_zero, here]
  | succ budget ih =>
    cases hs : runEnd (step s) with
    | some first =>
      have inBudget : first ≠ .outOfBudget t := by
        rintro rfl
        exact runEnd_ne_outOfBudget _ t hs
      simp [runLoop_of_runEnd hs, not_goesOnFor_succ_of_runEnd hs, inBudget]
    | none =>
      obtain ⟨u, hu, on⟩ := runEnd_eq_none_iff.1 hs
      simp [runLoop_of_goesOn hu on, goesOnFor_succ hu, core_run_succ hu, on, ih]

/-! ### `runCode` (R196, R197, R205) -/

/-- From the address of a cell `runCode` is the loop with PC set there (R196). -/
theorem runCode_of_lt {start : Nat} (h : start < 256) (budget : Nat) (s : State) :
    runCode budget start s = runLoop step budget { s with pc := BitVec.ofNat 9 start } :=
  if_pos h

/-- From any other address `runCode` is refused, whatever the budget (decision D23). -/
theorem runCode_of_le {start : Nat} (h : 256 ≤ start) (budget : Nat) (s : State) :
    runCode budget start s = .refused .hostArgument :=
  if_neg (Nat.not_lt.2 h)

/-- Settles O57: `runLoop_eq_iff` at the two outcomes that a step brings about, and
`runLoop_eq_outOfBudget_iff`. -/
theorem runCodeIsSingleStepsUntilEnd : Obligations.RunCodeIsSingleStepsUntilEnd := by
  intro budget start s hstart
  simp only [runCode_of_lt hstart]
  refine ⟨fun reason t => ?_, fun r => ?_, fun t => runLoop_eq_outOfBudget_iff budget _ t⟩
  · exact (runLoop_eq_iff (by nofun) budget _).trans <|
      exists_congr fun k => and_congr_right' (and_congr_right' runEnd_eq_ended_iff)
  · exact (runLoop_eq_iff (by nofun) budget _).trans <|
      exists_congr fun k => and_congr_right' (and_congr_right' runEnd_eq_faulted_iff)

/-- Settles O58: the step that decides the outcome is within the larger budget too. -/
theorem largerBudgetGivesTheSameRun : Obligations.LargerBudgetGivesTheSameRun := by
  intro budget more start s out le h inBudget
  rcases Nat.lt_or_ge start 256 with low | high
  · rw [runCode_of_lt low, runLoop_eq_iff inBudget] at h ⊢
    obtain ⟨k, hk, decides⟩ := h
    exact ⟨k, hk.trans_le le, decides⟩
  · rwa [runCode_of_le high] at h ⊢

end Sys2Proof.Machine
